-- ==== Sys2Proof/Word.lean ====
section
/-! DEFINITION. The widths the block's registers and wires have (00_scope.md R8). -/

namespace Sys2Proof

/-- A stream byte, a command byte, a buffer entry (R8: 8 bits). -/
abbrev Byte := BitVec 8

/-- The running checksum, a channel, a motor speed (R8: 16 bits). -/
abbrev Half := BitVec 16

/-- The payload length and the buffer pointer (R8: 5 bits). -/
abbrev Idx := BitVec 5

end Sys2Proof
end

