-- ==== Sys2Proof/Config.lean ====
section
/-! DEFINITION. The fixed constants of 00_scope.md R6 and the configuration parameters of R7. -/

namespace Sys2Proof

/-- R6 PROTOCOL_OVERHEAD: the length byte plus the two checksum bytes. -/
abbrev protocolOverhead : Nat := 3
/-- R6 PROTOCOL_MAX_LENGTH: the largest accepted length byte. -/
abbrev protocolMaxLength : Nat := 32
/-- R6 BUF_CAP: the payload buffer's capacity in bytes. -/
abbrev bufCap : Nat := 32
/-- R6 NUM_CH: the channels decoded and published. -/
abbrev numCh : Nat := 6
/-- R105, R108: the least payload length that carries six channels, the command byte and two bytes for each. -/
abbrev minCommitLen : Nat := 1 + 2 * numCh
/-- R6 CMD_SET_CHANNELS: the one recognised command byte. -/
abbrev cmdSetChannelsCode : Byte := 0x40
/-- R6 CSUM_INIT_BASE: the checksum seed before the length byte is subtracted. -/
abbrev csumInitBase : Half := 0xFFFF
/-- R6 CH_STEER. -/
abbrev chSteer : Fin numCh := 0
/-- R6 CH_THROTTLE. -/
abbrev chThrottle : Fin numCh := 2
/-- R6 CENTER: the stick centre. -/
abbrev center : Int := 1500
/-- R6 HALF_RANGE: the stick half-range. -/
abbrev halfRange : Int := 500
/-- R6 DEAD: the half-width of the dead-band around CENTER. -/
abbrev dead : Int := 10
/-- R6 IN_MIN: the bottom of normalize's input range. -/
abbrev inMin : Int := 1000
/-- R6 IN_MAX: the top of normalize's input range. -/
abbrev inMax : Int := 2000

/-- R7, R82 DIR_MODE: code 0 is ALWAYS_FORWARD, the only admitted value; the other code is the throttle-band variant,
whose arithmetic the spec does not give (41_drive_mixer.md R152). -/
inductive DirMode where
  | alwaysForward
  | throttleBand
deriving DecidableEq, Repr

/-- R7: the configuration parameters, fixed for the whole of a run. -/
structure Config where
  /-- DUTY_MAX, the top of the motor speed range: an open 16-bit parameter (92_eei_decisions.md D16). -/
  dutyMax : Half
  /-- DIR_MODE, the direction policy. -/
  dirMode : DirMode
deriving DecidableEq, Repr

/-- R152: a configuration is admitted only with `DIR_MODE = ALWAYS_FORWARD`. -/
def Config.admitted (c : Config) : Bool := c.dirMode == .alwaysForward

/-- DESIGN CHOICE (log 3): the parameters `State.reset` carries. R7 leaves DUTY_MAX open; 500 is the spec's example and
the value of its test vectors (95_test_vectors.md). -/
def Config.example500 : Config := { dutyMax := 500, dirMode := .alwaysForward }

end Sys2Proof
end

