-- ==== Sys2Proof/Syntax.lean ====
section
/-! DEFINITION. The rows of spec/opcode_table.json as one type, and the decoder phases and input events that select
them (30_encoding.md R70, R72, R84). -/

namespace Sys2Proof

/-- R21, R72: the decoder phase. All four 2-bit codes are phases. -/
inductive Phase where
  | idle
  | accum
  | ckLo
  | ckHi
deriving DecidableEq, Repr

/-- R143: the steering bands. -/
inductive Band where
  | straight
  | right
  | left
deriving DecidableEq, Repr

/-- R84: one constructor per row of the decode map. The byte of a decoder row is the event's byte `b`; the byte of
CMD_UNRECOGNISED is the command byte. The mixer rows and RESET take their operands from the registers. -/
inductive Instr where
  /-- R101. -/
  | idleLenAccept (b : Byte)
  /-- R102. -/
  | idleDrop (b : Byte)
  /-- R103. -/
  | accumByte (b : Byte)
  /-- R104. -/
  | ckloByte (b : Byte)
  /-- R105. -/
  | ckhiCommit (b : Byte)
  /-- R106. -/
  | ckhiDiscardCmd (b : Byte)
  /-- R107. -/
  | ckhiReject (b : Byte)
  /-- R108. -/
  | ckhiDiscardShort (b : Byte)
  /-- R111: the command byte 0x40. -/
  | cmdSetChannels
  /-- R112: a command byte other than 0x40. -/
  | cmdUnrecognised (cmd : Byte)
  /-- R140. -/
  | mixTick
  /-- R148. -/
  | mixStraight
  /-- R149. -/
  | mixRight
  /-- R150. -/
  | mixLeft
  /-- R200. -/
  | reset
deriving DecidableEq, Repr

end Sys2Proof
end

