-- ==== Sys2Proof/WellFormed.lean ====
section
/-! DEFINITION. Which instruction terms stand for a row of the table: the byte ranges of 30_encoding.md R84. -/

namespace Sys2Proof

/-- R74: a valid length byte, `3 < fb <= 32`. -/
def isLenByte (b : Byte) : Bool :=
  decide (protocolOverhead < b.toNat) && decide (b.toNat ≤ protocolMaxLength)

/-- R84's byte column: what the operand of a row must be, whatever the state. -/
def Instr.wf : Instr → Bool
  | .idleLenAccept b => isLenByte b
  | .idleDrop b => !isLenByte b
  | .accumByte _ => true
  | .ckloByte _ => true
  | .ckhiCommit _ => true
  | .ckhiDiscardCmd _ => true
  | .ckhiReject _ => true
  | .ckhiDiscardShort _ => true
  | .cmdSetChannels => true
  | .cmdUnrecognised cmd => cmd != cmdSetChannelsCode
  | .mixTick => true
  | .mixStraight => true
  | .mixRight => true
  | .mixLeft => true
  | .reset => true

end Sys2Proof
end

