-- ==== Sys2Proof/Decode.lean ====
section
/-! DEFINITION. The decode of 30_encoding.md (R70 to R84) and spec/opcode_table.json, total on any word and any bytes,
and the encoder written from the same table. -/

namespace Sys2Proof

/-! ### Bit fields and byte order -/

/-- R9: `(hi << 8) | lo`; R51, R52: two wire bytes, low byte first, make one 16-bit value. -/
def pair16 (lo hi : Byte) : Half := (hi.setWidth 16 <<< 8) ||| lo.setWidth 16

/-- R9: bits [15:8]. -/
def highByte (v : Half) : Byte := v.extractLsb' 8 8

/-- R9: bits [7:0]. -/
def lowByte (v : Half) : Byte := v.extractLsb' 0 8

/-- R72: the 2-bit code of a phase. -/
def phaseCode : Phase → BitVec 2
  | .idle => 0b00
  | .accum => 0b01
  | .ckLo => 0b10
  | .ckHi => 0b11

/-- R72: the phase of a 2-bit code; every code is one. -/
def phaseOf (c : BitVec 2) : Phase :=
  if c = 0b00 then .idle
  else if c = 0b01 then .accum
  else if c = 0b10 then .ckLo
  else .ckHi

/-- R71: the decode word `DW = {phase[1:0], b[7:0]}`. -/
def decodeWordOf (p : Phase) (b : Byte) : BitVec 10 := phaseCode p ++ b

/-- R71: `DW[9:8]`. -/
def dwPhase (dw : BitVec 10) : Phase := phaseOf (dw.extractLsb' 8 2)

/-- R71: `DW[7:0]`. -/
def dwByte (dw : BitVec 10) : Byte := dw.extractLsb' 0 8

/-- R82 and the table: the port vector `EV = {rst, tick, in_valid}`. -/
def portVector (rst tick inValid : Bool) : BitVec 3 := BitVec.ofBool rst ++ BitVec.ofBool tick ++ BitVec.ofBool inValid

/-! ### What takes part in the choice of a row -/

/-- The registers that the guards of R71 and the bands of R143 read. -/
structure DecodeCtx where
  csum : Half
  cklo : Byte
  /-- `buf[0]`, the command byte (R78). -/
  cmd : Byte
  len : Idx
  /-- `channels[0]`, for the rows within a tick. -/
  steer : Half
deriving DecidableEq, Repr

/-- R200: the guards' registers after reset. -/
def DecodeCtx.atReset : DecodeCtx := { csum := 0, cklo := 0, cmd := 0, len := 0, steer := 0 }

/-- R101's test on a byte received in IDLE. -/
def lenAccepted (b : Byte) : Bool := decide (3 < b.toNat ∧ b.toNat ≤ 32)

/-- R109: CsumMatch, an exact 16-bit equality. -/
def csumMatch (ctx : DecodeCtx) (b : Byte) : Bool := pair16 ctx.cklo b == ctx.csum

/-- R80, R108: the frame is too short to carry six channels. -/
def frameShort (ctx : DecodeCtx) : Bool := decide (ctx.len.toNat < minCommitLen)

/-- R143: the steering band, over all 65536 values. -/
def steerBand (steer : Half) : Band :=
  if (steer.toNat : Int) ≥ center + dead then .right
  else if (steer.toNat : Int) ≤ center - dead then .left
  else .straight

/-! ### Decode -/

/-- The words of the table, by the row's format. `tick3` is the port vector of a TICK event at the place where the
steering guard takes part (R84: "within TICK"). -/
inductive TableWord where
  /-- Format DW10. -/
  | dw10 (dw : BitVec 10)
  /-- Format CMD8. -/
  | cmd8 (cmd : Byte)
  /-- Format EV3: which event the ports present. -/
  | ev3 (ev : BitVec 3)
  /-- Format EV3, within a TICK: which band rule it runs. -/
  | tick3 (ev : BitVec 3)
deriving DecidableEq, Repr

/-- Why a word is rejected. -/
inductive DecodeError where
  /-- `EV = 000`: no event. -/
  | noEvent
  /-- `EV = 001`: a BYTE event, whose row the decode word DW selects. -/
  | byteEvent
  /-- A band row is asked for outside a TICK. -/
  | notATick
  /-- Bits 15 to 10 of a decode word laid out in two bytes are not zero. -/
  | reservedBits
  /-- No format of the table has this many bytes. -/
  | badWidth
deriving DecidableEq, Repr

/-- R100: the one rule a `BYTE(b)` event runs. -/
def decodeByte (ctx : DecodeCtx) (p : Phase) (b : Byte) : Instr :=
  match p with
  | .idle => if lenAccepted b then .idleLenAccept b else .idleDrop b
  | .accum => .accumByte b
  | .ckLo => .ckloByte b
  | .ckHi =>
    if csumMatch ctx b then
      if ctx.cmd ≠ cmdSetChannelsCode then .ckhiDiscardCmd b
      else if frameShort ctx then .ckhiDiscardShort b
      else .ckhiCommit b
    else .ckhiReject b

/-- R78, R111, R112: the row of a command byte. -/
def decodeCommand (cmd : Byte) : Instr :=
  if cmd = cmdSetChannelsCode then .cmdSetChannels else .cmdUnrecognised cmd

/-- R148, R149, R150: the row a tick runs in each band. -/
def decodeBand : Band → Instr
  | .straight => .mixStraight
  | .right => .mixRight
  | .left => .mixLeft

/-- The instruction of a table word, or the reason it has none. -/
def decode (ctx : DecodeCtx) : TableWord → Except DecodeError Instr
  | .dw10 dw => .ok (decodeByte ctx (dwPhase dw) (dwByte dw))
  | .cmd8 cmd => .ok (decodeCommand cmd)
  | .ev3 ev =>
    if ev.getLsbD 2 then .ok .reset
    else if ev.getLsbD 1 then .ok .mixTick
    else if ev.getLsbD 0 then .error .byteEvent
    else .error .noEvent
  | .tick3 ev =>
    if ev.getLsbD 2 then .error .notATick
    else if ev.getLsbD 1 then .ok (decodeBand (steerBand ctx.steer))
    else .error .notATick

/-! ### Encode -/

/-- The word of an instruction, written from the match column of spec/opcode_table.json; the don't-care bits of the EV3
rows are zero. -/
def encode : Instr → TableWord
  | .idleLenAccept b => .dw10 (0b00#2 ++ b)
  | .idleDrop b => .dw10 (0b00#2 ++ b)
  | .accumByte b => .dw10 (0b01#2 ++ b)
  | .ckloByte b => .dw10 (0b10#2 ++ b)
  | .ckhiCommit b => .dw10 (0b11#2 ++ b)
  | .ckhiDiscardCmd b => .dw10 (0b11#2 ++ b)
  | .ckhiReject b => .dw10 (0b11#2 ++ b)
  | .ckhiDiscardShort b => .dw10 (0b11#2 ++ b)
  | .cmdSetChannels => .cmd8 0x40
  | .cmdUnrecognised cmd => .cmd8 cmd
  | .mixTick => .ev3 0b010
  | .mixStraight => .tick3 0b010
  | .mixRight => .tick3 0b010
  | .mixLeft => .tick3 0b010
  | .reset => .ev3 0b100

/-! ### The table as data -/

/-- One (mask, match) pair of a row. -/
structure Pattern where
  mask : Nat
  pat : Nat
deriving DecidableEq, Repr

/-- R71: `(word & mask) == match`. -/
def Pattern.hits (p : Pattern) (w : Nat) : Bool := w &&& p.mask == p.pat

/-- The bits of a table word as a number, bit 0 the least significant. -/
def TableWord.bits : TableWord → Nat
  | .dw10 dw => dw.toNat
  | .cmd8 cmd => cmd.toNat
  | .ev3 ev => ev.toNat
  | .tick3 ev => ev.toNat

/-- The patterns of an instruction's row: its `mask_cover` where the table gives one, else its mask and match. -/
def Instr.patterns : Instr → List Pattern
  | .idleLenAccept _ => [⟨0x3FC, 0x004⟩, ⟨0x3F8, 0x008⟩, ⟨0x3F0, 0x010⟩, ⟨0x3FF, 0x020⟩]
  | .idleDrop _ =>
    [⟨0x3FC, 0x000⟩, ⟨0x3FF, 0x021⟩, ⟨0x3FE, 0x022⟩, ⟨0x3FC, 0x024⟩, ⟨0x3F8, 0x028⟩, ⟨0x3F0, 0x030⟩, ⟨0x3C0, 0x040⟩,
      ⟨0x380, 0x080⟩]
  | .accumByte _ => [⟨0x300, 0x100⟩]
  | .ckloByte _ => [⟨0x300, 0x200⟩]
  | .ckhiCommit _ => [⟨0x300, 0x300⟩]
  | .ckhiDiscardCmd _ => [⟨0x300, 0x300⟩]
  | .ckhiReject _ => [⟨0x300, 0x300⟩]
  | .ckhiDiscardShort _ => [⟨0x300, 0x300⟩]
  | .cmdSetChannels => [⟨0xFF, 0x40⟩]
  | .cmdUnrecognised _ =>
    [⟨0xC0, 0x00⟩, ⟨0xFF, 0x41⟩, ⟨0xFE, 0x42⟩, ⟨0xFC, 0x44⟩, ⟨0xF8, 0x48⟩, ⟨0xF0, 0x50⟩, ⟨0xE0, 0x60⟩, ⟨0x80, 0x80⟩]
  | .mixTick => [⟨0b110, 0b010⟩]
  | .mixStraight => [⟨0b110, 0b010⟩]
  | .mixRight => [⟨0b110, 0b010⟩]
  | .mixLeft => [⟨0b110, 0b010⟩]
  | .reset => [⟨0b100, 0b100⟩]

/-- The table's guard column, where it reads a register: R71's three guards and the steering bands. The rows whose guard
is a range of the byte have that range in their patterns. -/
def Instr.guard (ctx : DecodeCtx) : Instr → Bool
  | .idleLenAccept _ => true
  | .idleDrop _ => true
  | .accumByte _ => true
  | .ckloByte _ => true
  | .ckhiCommit b => csumMatch ctx b && ctx.cmd == 0x40 && decide (13 ≤ ctx.len.toNat)
  | .ckhiDiscardCmd b => csumMatch ctx b && ctx.cmd != 0x40
  | .ckhiReject b => !csumMatch ctx b
  | .ckhiDiscardShort b => csumMatch ctx b && ctx.cmd == 0x40 && decide (ctx.len.toNat < 13)
  | .cmdSetChannels => true
  | .cmdUnrecognised _ => true
  | .mixTick => true
  | .mixStraight => decide (1490 < ctx.steer.toNat ∧ ctx.steer.toNat < 1510)
  | .mixRight => decide (1510 ≤ ctx.steer.toNat)
  | .mixLeft => decide (ctx.steer.toNat ≤ 1490)
  | .reset => true

/-- R71: a row matches a word when one of its patterns hits the word and its guard holds. -/
def Instr.rowMatches (ctx : DecodeCtx) (w : Nat) (i : Instr) : Bool := i.patterns.any (·.hits w) && i.guard ctx

/-- The eight DW10 rows, each with the event's byte as its operand. -/
def byteRows (b : Byte) : List Instr :=
  [.idleLenAccept b, .idleDrop b, .accumByte b, .ckloByte b, .ckhiCommit b, .ckhiDiscardCmd b, .ckhiReject b,
    .ckhiDiscardShort b]

/-- The two CMD8 rows. -/
def commandRows (cmd : Byte) : List Instr := [.cmdSetChannels, .cmdUnrecognised cmd]

/-- The three rows a tick chooses among. -/
def bandRows : List Instr := [.mixStraight, .mixRight, .mixLeft]

/-! ### Words laid out in bytes -/

/-- DESIGN CHOICE (log 6): a one-byte word is a port vector where an EV3 row matches it (`rst` or `tick` set, no bit
above EV's three), and a command byte otherwise. The spec gives words no layout in bytes. -/
def byteWord (c : Byte) : TableWord :=
  if 2 ≤ c.toNat ∧ c.toNat < 8 then .ev3 (c.setWidth 3) else .cmd8 c

/-- A table word laid out in bytes, the first byte the least significant. -/
def readTableWord : List Byte → Except DecodeError TableWord
  | [c] => .ok (byteWord c)
  | [lo, hi] => if hi.toNat < 4 then .ok (.dw10 ((pair16 lo hi).setWidth 10)) else .error .reservedBits
  | _ => .error .badWidth

/-- The instruction of a word laid out in bytes. -/
def decodeBytes (ctx : DecodeCtx) (bytes : List Byte) : Except DecodeError Instr :=
  match readTableWord bytes with
  | .ok w => decode ctx w
  | .error e => .error e

/-- The `n` low bytes of a number, least significant first. -/
def bytesOfNat : Nat → Nat → List Byte
  | 0, _ => []
  | n + 1, w => BitVec.ofNat 8 w :: bytesOfNat n (w / 256)

/-- How many bytes hold `nbits` bits. -/
def bytesForBits (nbits : Nat) : Nat := (nbits + 7) / 8

/-- The instruction the decoder reads from a table row's word, in the registers of reset (log 6): several rows share a
word and their guards read registers (R71). -/
def decodeTableWord (nbits w : Nat) : Option Instr :=
  match decodeBytes DecodeCtx.atReset (bytesOfNat (bytesForBits nbits) w) with
  | .ok i => some i
  | .error _ => none

end Sys2Proof
end

