-- ==== Sys2Proof/Machine/State.lean ====
section
/-! DEFINITION. The machine's state: the tuple of 10_state.md R20, the configuration arguments of R29, and the port cycles
still to be taken (the model's own field, log 1). -/

namespace Sys2Proof.Machine

/-- R28, R82: a motor's direction. -/
inductive Dir where
  | forward
  | backward
deriving DecidableEq, Repr

/-- R28: a Motor record. -/
structure Motor where
  speed : Half
  dir : Dir
deriving DecidableEq, Repr

/-- R27: ChannelState, `channels[0]` to `channels[5]`. -/
structure Channels where
  ch0 : Half
  ch1 : Half
  ch2 : Half
  ch3 : Half
  ch4 : Half
  ch5 : Half
deriving DecidableEq, Repr

/-- R26, R11: the payload buffer, the block's only memory, as (index, byte) cells in one canonical form: indices strictly
rising, no entry equal to what an unlisted index reads as (`Memory.unlisted`), no index outside the 32 bytes. -/
abbrev Memory := List Host.Cell

/-- R82: the inputs the host presents in one clock cycle. -/
structure PortIn where
  rst : Bool
  tick : Bool
  inValid : Bool
  /-- Sampled only when `inValid` holds. -/
  inByte : Byte
deriving DecidableEq, Repr

/-- The state of the block. -/
structure State where
  /-- R21. -/
  phase : Phase
  /-- R22: the payload bytes the current frame declares. -/
  len : Idx
  /-- R23: the payload bytes stored so far. -/
  ptr : Idx
  /-- R24: the running checksum. -/
  csum : Half
  /-- R25: the checksum low byte. -/
  cklo : Byte
  /-- R26: the payload buffer. -/
  buf : Memory
  /-- R27. -/
  channels : Channels
  /-- R28: the left motor. -/
  motorA : Motor
  /-- R28: the right motor. -/
  motorB : Motor
  /-- R29: DUTY_MAX and DIR_MODE, arguments of the run; no event writes them (log 3). -/
  cfg : Config
  /-- The MODEL's own: port cycles presented and not yet taken, the next one first (log 1). -/
  inputs : List PortIn
deriving DecidableEq, Repr

/-- R180: the block raises no exception, trap or fault, so there is no reason to stop with one. -/
inductive Fault where
deriving DecidableEq, Repr

/-- Why the model has no meaning for what it is given. -/
inductive Refusal where
  /-- Raised by an arm of `exec` for an instruction that has no meaning yet; no arm is one. Safe. -/
  | notModelled (mnemonic : String)
  /-- R152: raised by `step`, and by the mixer rows, when DIR_MODE is not ALWAYS_FORWARD: a model refuses such a
  configuration before the run starts. Safe: the spec gives no arithmetic for it. -/
  | dirModeNotAdmitted
  /-- Raised by `step` for a fetched word that no row matches. No state fetches one, so it is never raised. Safe. -/
  | undecodable (e : DecodeError)
deriving DecidableEq, Repr

/-- R27: all six channels zero. -/
def Channels.zero : Channels := { ch0 := 0, ch1 := 0, ch2 := 0, ch3 := 0, ch4 := 0, ch5 := 0 }

/-- R28, R200: the reset value of a Motor record. -/
def Motor.stopped : Motor := { speed := 0, dir := .forward }

/-- R200: every register at its reset value, for a given configuration, with no port cycle waiting. -/
def State.resetWith (cfg : Config) : State where
  phase := .idle
  len := 0
  ptr := 0
  csum := 0x0000
  cklo := 0x00
  buf := []
  channels := Channels.zero
  motorA := Motor.stopped
  motorB := Motor.stopped
  cfg := cfg
  inputs := []

/-- The machine right after reset. DESIGN CHOICE (log 3): DUTY_MAX, which R7 leaves open, is the spec's example 500. -/
def State.reset : State := State.resetWith Config.example500

end Sys2Proof.Machine
end

