-- ==== Sys2Proof/Machine/Ops.lean ====
section
/-! DEFINITION. The named operations over the buffer, the channels and the registers (00_scope.md R11). Every write of
one event takes effect together: an operation computes from the state it is given and answers the state after. -/

namespace Sys2Proof.Machine

/-! ### The payload buffer -/

/-- R26, R200 (92_eei_decisions.md D5): what an index that lists nothing reads as, the buffer's reset value. -/
def Memory.unlisted : Byte := 0x00

/-- The byte at an index. -/
def Memory.read : Memory → Nat → Byte
  | [], _ => Memory.unlisted
  | (k, v) :: rest, a => if a = k then v else Memory.read rest a

/-- The cells with the byte at an index replaced; the value an unlisted index reads as is not listed. -/
def Memory.write : Memory → Nat → Byte → Memory
  | [], a, b => if b = Memory.unlisted then [] else [(a, b)]
  | (k, v) :: rest, a, b =>
    if a < k then (if b = Memory.unlisted then (k, v) :: rest else (a, b) :: (k, v) :: rest)
    else if a = k then (if b = Memory.unlisted then rest else (a, b) :: rest)
    else (k, v) :: Memory.write rest a b

/-- Every index is at least `lo` and below the capacity (R6 BUF_CAP), the indices rise strictly, and no cell lists the
value an unlisted index reads as. -/
def Memory.wfFrom : Nat → Memory → Bool
  | _, [] => true
  | lo, (k, v) :: rest => decide (lo ≤ k) && decide (k < bufCap) && v != Memory.unlisted && Memory.wfFrom (k + 1) rest

/-- The canonical form of the buffer. -/
def Memory.wf (m : Memory) : Bool := Memory.wfFrom 0 m

/-- R11: BufRead. The index has 5 bits, so it is always inside the 32 bytes (R116). -/
def bufRead (m : Memory) (i : Idx) : Byte := Memory.read m i.toNat

/-- R11: BufWrite. -/
def bufWrite (m : Memory) (i : Idx) (b : Byte) : Memory := Memory.write m i.toNat b

/-! ### Channels -/

/-- R27: `channels[i]`. -/
def Channels.get (c : Channels) (i : Fin numCh) : Half :=
  match i with
  | 0 => c.ch0
  | 1 => c.ch1
  | 2 => c.ch2
  | 3 => c.ch3
  | 4 => c.ch4
  | 5 => c.ch5

/-! ### What one event writes -/

/-- R101: the registers that accepting the length byte `b` writes. -/
def acceptLength (b : Byte) (s : State) : State :=
  { s with
    len := (b - 3).setWidth 5
    csum := csumInitBase - b.setWidth 16
    ptr := 0
    phase := .accum }

/-- R103, 10_state.md R23: is the byte at `ptr` the last payload byte? The sum is exact (00_scope.md R10; log 9). -/
def lastPayloadByte (s : State) : Bool := s.ptr.toNat + 1 == s.len.toNat

/-- R103: store one payload byte and subtract it from the checksum. -/
def storePayload (b : Byte) (s : State) : State :=
  { s with
    buf := bufWrite s.buf s.ptr b
    csum := s.csum - b.setWidth 16
    ptr := s.ptr + 1
    phase := if lastPayloadByte s then .ckLo else s.phase }

/-- R104: hold the checksum low byte and wait for the high byte. -/
def holdLowByte (b : Byte) (s : State) : State := { s with cklo := b, phase := .ckHi }

/-- R191: the decoder's only recovery action and the end of every frame, good or bad. -/
def returnToIdle (s : State) : State := { s with phase := .idle }

/-- R58: all six channels in one step. -/
def publish (c : Channels) (s : State) : State := { s with channels := c }

/-- R153: both Motor records, both fields. -/
def writeMotors (a b : Motor) (s : State) : State := { s with motorA := a, motorB := b }

/-- R200: every register at its reset value; the parameters stay, and the cycles the host presents are not registers. -/
def resetRegisters (s : State) : State := { State.resetWith s.cfg with inputs := s.inputs }

/-- The state with another list of port cycles waiting. -/
def withInputs (ps : List PortIn) (s : State) : State := { s with inputs := ps }

/-- R152: go on only in an admitted configuration. -/
def ifAdmitted (s : State) (k : Host.Outcome State Fault Refusal) : Host.Outcome State Fault Refusal :=
  if s.cfg.admitted then k else .refused .dirModeNotAdmitted

end Sys2Proof.Machine
end

