-- ==== Sys2Proof/Machine/Operands.lean ====
section
/-! DEFINITION. The operands of the rows: what an event reads from the buffer, the channels and the guards' registers. -/

namespace Sys2Proof.Machine

/-- R71: the registers that take part in the choice of a row. -/
def decodeCtx (s : State) : DecodeCtx where
  csum := s.csum
  cklo := s.cklo
  cmd := bufRead s.buf 0
  len := s.len
  steer := s.channels.get chSteer

/-- R77, R110: one channel field, `payload[1 + 2*i] | (payload[2 + 2*i] << 8)`. -/
def channelField (m : Memory) (i : Fin numCh) : Half :=
  pair16 (bufRead m (BitVec.ofNat 5 (1 + 2 * i.val))) (bufRead m (BitVec.ofNat 5 (2 + 2 * i.val)))

/-- R110: Decode6, six independent little-endian lanes of buffer entries 1 to 12. -/
def decode6 (m : Memory) : Channels where
  ch0 := channelField m 0
  ch1 := channelField m 1
  ch2 := channelField m 2
  ch3 := channelField m 3
  ch4 := channelField m 4
  ch5 := channelField m 5

/-- R141: `steer = channels[0]`, an unsigned value, not range-checked. -/
def steerOf (s : State) : Int := (s.channels.get chSteer).toNat

/-- R141: `throttle = channels[2]`, an unsigned value, not range-checked. -/
def throttleOf (s : State) : Int := (s.channels.get chThrottle).toNat

end Sys2Proof.Machine
end

