-- ==== Sys2Proof/Machine/Flags.lean ====
section
/-! DEFINITION. The block has no status flags (10_state.md R30). The one flag-like value is the `ok` half of normalize's
result (41_drive_mixer.md R154), computed here; no register or port shows it. -/

namespace Sys2Proof.Machine

/-- R154: normalize's pair `(ok, value)`. -/
structure NormResult where
  ok : Bool
  value : Int
deriving DecidableEq, Repr

/-- R147: when normalize has a value: the input is in range, the output range is not empty, and the input range has a
width (92_eei_decisions.md D17). -/
def normOk (value oldMin oldMax newMin newMax : Int) : Bool :=
  !(decide (value < oldMin ∨ value > oldMax ∨ newMin ≥ newMax) || oldMax == oldMin)

end Sys2Proof.Machine
end

