-- ==== Sys2Proof/Machine/Datapath.lean ====
section
/-! DEFINITION. The mixer's arithmetic (41_drive_mixer.md R144 to R150): exact integers, rounding as 00_scope.md R10. -/

namespace Sys2Proof.Machine

/-- R10: `round(num / den)` for `den > 0`, the nearest integer with ties going up: `floor(num/den + 1/2)`. -/
def roundDiv (num den : Int) : Int := (2 * num + den) / (2 * den)

/-- R147: the spec's normalize, with the sentinel as `ok = false`. The rational
`(value - oldMin) * (newMax - newMin) / w + newMin`, `w` the input range's width, is rounded as one fraction over `w`. -/
def mixerNormalize (value oldMin oldMax newMin newMax : Int) : NormResult :=
  if normOk value oldMin oldMax newMin newMax then
    { ok := true
      value := roundDiv ((value - oldMin) * (newMax - newMin) + newMin * (oldMax - oldMin)) (oldMax - oldMin) }
  else { ok := false, value := 0 }

/-- R154: `speed = ok ? value : 0`. -/
def NormResult.speed (r : NormResult) : Int := if r.ok then r.value else 0

/-- R147: `N(v) = normalize(v, 1000, 2000, 0, DUTY_MAX)`, as the 16-bit speed it drives. -/
def motorSpeed (dutyMax : Half) (v : Int) : Half :=
  BitVec.ofInt 16 (mixerNormalize v inMin inMax 0 dutyMax.toNat).speed

/-- R144: the turn amount of the right band. -/
def turnAmountRight (steer : Int) : Int := steer - center

/-- R144: the turn amount of the left band. -/
def turnAmountLeft (steer : Int) : Int := center - steer

/-- R145: `round(turn_amount / 500 * 100)`. -/
def turnPct (turnAmount : Int) : Int := roundDiv (turnAmount * 100) halfRange

/-- R146: `round(1000 * turn_pct / 100)`. -/
def reduction (pct : Int) : Int := roundDiv (1000 * pct) 100

/-- The speeds `(sA, sB)` of the two motors. -/
structure Speeds where
  a : Half
  b : Half
deriving DecidableEq, Repr

/-- R148: no reduction. -/
def straightSpeeds (dutyMax : Half) (throttle : Int) : Speeds :=
  { a := motorSpeed dutyMax throttle, b := motorSpeed dutyMax throttle }

/-- R149, R155: the right motor, B, is reduced. -/
def rightSpeeds (dutyMax : Half) (steer throttle : Int) : Speeds :=
  { a := motorSpeed dutyMax throttle
    b := motorSpeed dutyMax (throttle - reduction (turnPct (turnAmountRight steer))) }

/-- R150, R155: the left motor, A, is reduced. -/
def leftSpeeds (dutyMax : Half) (steer throttle : Int) : Speeds :=
  { a := motorSpeed dutyMax (throttle - reduction (turnPct (turnAmountLeft steer)))
    b := motorSpeed dutyMax throttle }

/-- R140: the speeds of a tick whose steer is in the given band. -/
def bandSpeeds (band : Band) (dutyMax : Half) (steer throttle : Int) : Speeds :=
  match band with
  | .straight => straightSpeeds dutyMax throttle
  | .right => rightSpeeds dutyMax steer throttle
  | .left => leftSpeeds dutyMax steer throttle

/-- R140, R142: both Motor records get their speed and the direction forward. -/
def driveForward (v : Speeds) (s : State) : State :=
  writeMotors { speed := v.a, dir := .forward } { speed := v.b, dir := .forward } s

end Sys2Proof.Machine
end

