-- ==== Sys2Proof/Machine/CommandByte.lean ====
section
/-! DEFINITION. The meanings of the command-byte rows (40_frame_decoder.md R111, R112): what the event that completes a
frame with that command does, once its checksum has matched (log 7). -/

namespace Sys2Proof.Machine

/-- R111 CMD_SET_CHANNELS: the frame is acted on by CKHI_COMMIT, unless it has fewer than six channel fields and is
discarded (R108). -/
def execCmdSetChannels (s : State) : Host.Outcome State Fault Refusal :=
  if frameShort (decodeCtx s) then .next (returnToIdle s) else .next (returnToIdle (publish (decode6 s.buf) s))

/-- R112 CMD_UNRECOGNISED: the frame is discarded; the command has no other effect. -/
def execCmdUnrecognised (_cmd : Byte) (s : State) : Host.Outcome State Fault Refusal := .next (returnToIdle s)

end Sys2Proof.Machine
end

