-- ==== Sys2Proof/Machine/DriveMixer.lean ====
section
/-! DEFINITION. The meanings of the mixer rows (41_drive_mixer.md R140, R148, R149, R150). Each is a whole TICK event: it
writes both Motor records (R153). In a configuration that is not admitted no tick result exists (R152). -/

namespace Sys2Proof.Machine

/-- R140 MIX_TICK: classify the steer and run the band's rule on one snapshot of the channels (R59). -/
def execMixTick (s : State) : Host.Outcome State Fault Refusal :=
  ifAdmitted s (.next
    (driveForward (bandSpeeds (steerBand (s.channels.get chSteer)) s.cfg.dutyMax (steerOf s) (throttleOf s)) s))

/-- R148 MIX_STRAIGHT: steer in the dead-band. -/
def execMixStraight (s : State) : Host.Outcome State Fault Refusal :=
  ifAdmitted s (.next (driveForward (straightSpeeds s.cfg.dutyMax (throttleOf s)) s))

/-- R149 MIX_RIGHT: steer right, motor B is slowed. -/
def execMixRight (s : State) : Host.Outcome State Fault Refusal :=
  ifAdmitted s (.next (driveForward (rightSpeeds s.cfg.dutyMax (steerOf s) (throttleOf s)) s))

/-- R150 MIX_LEFT: steer left, motor A is slowed. -/
def execMixLeft (s : State) : Host.Outcome State Fault Refusal :=
  ifAdmitted s (.next (driveForward (leftSpeeds s.cfg.dutyMax (steerOf s) (throttleOf s)) s))

end Sys2Proof.Machine
end

