-- ==== Sys2Proof/Machine/FrameDecoder.lean ====
section
/-! DEFINITION. The meanings of the decoder rows (40_frame_decoder.md R101 to R108). A row's guard is the decoder's
(30_encoding.md R71); a meaning is the row's pseudocode (log 5). -/

namespace Sys2Proof.Machine

/-- R101 IDLE_LEN_ACCEPT: accept a length byte. -/
def execIdleLenAccept (b : Byte) (s : State) : Host.Outcome State Fault Refusal := .next (acceptLength b s)

/-- R102 IDLE_DROP: no register is written (R181). -/
def execIdleDrop (_b : Byte) (s : State) : Host.Outcome State Fault Refusal := .next s

/-- R103 ACCUM_BYTE: store one payload byte and subtract it from the checksum. -/
def execAccumByte (b : Byte) (s : State) : Host.Outcome State Fault Refusal := .next (storePayload b s)

/-- R104 CKLO_BYTE: hold the checksum low byte. -/
def execCkloByte (b : Byte) (s : State) : Host.Outcome State Fault Refusal := .next (holdLowByte b s)

/-- R105 CKHI_COMMIT: publish the six channels and go back to IDLE. The high byte is consumed. -/
def execCkhiCommit (_b : Byte) (s : State) : Host.Outcome State Fault Refusal :=
  .next (returnToIdle (publish (decode6 s.buf) s))

/-- R106, R183 CKHI_DISCARD_CMD: the command is not 0x40. -/
def execCkhiDiscardCmd (_b : Byte) (s : State) : Host.Outcome State Fault Refusal := .next (returnToIdle s)

/-- R107, R182 CKHI_REJECT: the checksum does not match. -/
def execCkhiReject (_b : Byte) (s : State) : Host.Outcome State Fault Refusal := .next (returnToIdle s)

/-- R108, R185 CKHI_DISCARD_SHORT: the frame carries fewer than six channels. -/
def execCkhiDiscardShort (_b : Byte) (s : State) : Host.Outcome State Fault Refusal := .next (returnToIdle s)

end Sys2Proof.Machine
end

