-- ==== Sys2Proof/Machine/ResetEvent.lean ====
section
/-! DEFINITION. The meaning of RESET (70_reset_and_hazards.md R200). -/

namespace Sys2Proof.Machine

/-- R200 RESET: every register at its reset value; DUTY_MAX and DIR_MODE are left alone. -/
def execReset (s : State) : Host.Outcome State Fault Refusal := .next (resetRegisters s)

end Sys2Proof.Machine
end

