-- ==== Sys2Proof/Machine/Dispatch.lean ====
section
/-! DEFINITION. One arm per row of spec/opcode_table.json. -/

namespace Sys2Proof.Machine

def exec (i : Instr) (s : State) : Host.Outcome State Fault Refusal :=
  match i with
  | .idleLenAccept b => Sys2Proof.Machine.execIdleLenAccept b s
  | .idleDrop b => Sys2Proof.Machine.execIdleDrop b s
  | .accumByte b => Sys2Proof.Machine.execAccumByte b s
  | .ckloByte b => Sys2Proof.Machine.execCkloByte b s
  | .ckhiCommit b => Sys2Proof.Machine.execCkhiCommit b s
  | .ckhiDiscardCmd b => Sys2Proof.Machine.execCkhiDiscardCmd b s
  | .ckhiReject b => Sys2Proof.Machine.execCkhiReject b s
  | .ckhiDiscardShort b => Sys2Proof.Machine.execCkhiDiscardShort b s
  | .cmdSetChannels => Sys2Proof.Machine.execCmdSetChannels s
  | .cmdUnrecognised cmd => Sys2Proof.Machine.execCmdUnrecognised cmd s
  | .mixTick => Sys2Proof.Machine.execMixTick s
  | .mixStraight => Sys2Proof.Machine.execMixStraight s
  | .mixRight => Sys2Proof.Machine.execMixRight s
  | .mixLeft => Sys2Proof.Machine.execMixLeft s
  | .reset => Sys2Proof.Machine.execReset s

end Sys2Proof.Machine
end

