-- ==== Sys2Proof/Machine/Fetch.lean ====
section
/-! DEFINITION. How the ports' cycles become events and decode words (30_encoding.md R70, R71, R82; 60_exceptions.md
R190), and how a word of the table is put where the next step takes it. -/

namespace Sys2Proof.Machine

/-- R82: the port vector of a cycle. -/
def PortIn.ev (p : PortIn) : BitVec 3 := portVector p.rst p.tick p.inValid

/-- A cycle that presents the byte `b`. -/
def byteCycle (b : Byte) : PortIn := { rst := false, tick := false, inValid := true, inByte := b }

/-- A cycle that presents a tick. -/
def tickCycle : PortIn := { rst := false, tick := true, inValid := false, inByte := 0 }

/-- A cycle that presents a reset. -/
def resetCycle : PortIn := { rst := true, tick := false, inValid := false, inByte := 0 }

/-- R205: a cycle with a tick and a byte is the TICK and then the BYTE; with no byte the cycle is over. -/
def afterTick (p : PortIn) (rest : List PortIn) : List PortIn :=
  if p.inValid then byteCycle p.inByte :: rest else rest

/-- R190: the word of the next event, and the cycles left after it. A reset cycle loses its tick and its byte (R201); a
tick comes before the byte of its cycle; `none` where the next cycle, if any, presents no event. -/
def fetchWord (s : State) : Option (TableWord × List PortIn) :=
  match s.inputs with
  | [] => none
  | p :: rest =>
    if p.rst then some (.ev3 p.ev, rest)
    else if p.tick then some (.ev3 p.ev, afterTick p rest)
    else if p.inValid then some (.dw10 (decodeWordOf s.phase p.inByte), rest)
    else none

/-- R195: a step with no event. The state is held; a cycle that presents nothing is over. -/
def holdState (s : State) : State := withInputs s.inputs.tail s

/-- The state in which the next step takes the given word (log 2). A decode word sets the phase and presents its byte; a
port vector is presented; a command byte stands in `buf[0]` of a frame whose checksum the next byte completes. -/
def placeWord (w : TableWord) (s : State) : State :=
  match w with
  | .dw10 dw => { s with phase := dwPhase dw, inputs := byteCycle (dwByte dw) :: s.inputs }
  | .cmd8 cmd =>
    { s with
      phase := .ckHi
      buf := bufWrite s.buf 0 cmd
      cklo := lowByte s.csum
      inputs := byteCycle (highByte s.csum) :: s.inputs }
  | .ev3 ev =>
    { s with inputs := { rst := ev.getLsbD 2, tick := ev.getLsbD 1, inValid := ev.getLsbD 0, inByte := 0 } :: s.inputs }
  | .tick3 ev =>
    { s with inputs := { rst := ev.getLsbD 2, tick := ev.getLsbD 1, inValid := ev.getLsbD 0, inByte := 0 } :: s.inputs }

/-- `placeWord` of a word laid out in bytes; bytes that are no word of the table leave the state as it is. -/
def placeBytes (bytes : List Byte) (s : State) : State :=
  match readTableWord bytes with
  | .ok w => placeWord w s
  | .error _ => s

end Sys2Proof.Machine
end

