-- ==== Sys2Proof/Machine/Step.lean ====
section
/-! DEFINITION. One step: the next event of the next port cycle, as one atomic change of the whole state (20_memory.md
R60). -/

namespace Sys2Proof.Machine

/-- R60, R100, R190: take the next event, decode its word in the registers as they are, and run the row. With no event
the state is held (R195). A configuration that is not admitted is refused before it runs (R152). -/
def step (s : State) : Host.Outcome State Fault Refusal :=
  ifAdmitted s <|
    match fetchWord s with
    | none => .next (holdState s)
    | some (w, rest) =>
      match decode (decodeCtx s) w with
      | .ok i => exec i (withInputs rest s)
      | .error e => .refused (.undecodable e)

/-- The state whose next step takes the word `w` of a table row of `nbits` bits (log 2). -/
def State.withFetchWord (s : State) (nbits w : Nat) : State :=
  placeBytes (bytesOfNat (bytesForBits nbits) w) s

end Sys2Proof.Machine
end

