-- ==== Sys2Proof/Machine/Wire.lean ====
section
/-! DEFINITION. The frame on the wire (30_encoding.md R73 to R80), the byte-stream notation of R83, and the output ports
of R82. -/

namespace Sys2Proof.Machine

/-- The exact sum of a list of bytes. -/
def byteSum : List Byte → Nat
  | [] => 0
  | b :: bs => b.toNat + byteSum bs

/-- R76: the 16-bit checksum that a frame with length byte `fb` and the given payload must carry,
`0xFFFF - sum` over the length byte and the payload. -/
def wireChecksum (fb : Byte) (payload : List Byte) : Nat := 0xFFFF - (fb.toNat + byteSum payload)

/-- R76: the frame is valid at the wire level. -/
def wireValid (fb : Byte) (payload : List Byte) (lo hi : Byte) : Bool :=
  wireChecksum fb payload == lo.toNat + 256 * hi.toNat

/-- R73: the bytes of a frame in wire order. -/
def wireFrame (fb : Byte) (payload : List Byte) (lo hi : Byte) : List Byte := fb :: (payload ++ [lo, hi])

/-- R77: channel field `i` of a payload. -/
def payloadChannel (payload : List Byte) (i : Fin numCh) : Half :=
  pair16 (payload.getD (1 + 2 * i.val) 0) (payload.getD (2 + 2 * i.val) 0)

/-- R77: the first six channel fields of a payload. -/
def payloadChannels (payload : List Byte) : Channels where
  ch0 := payloadChannel payload 0
  ch1 := payloadChannel payload 1
  ch2 := payloadChannel payload 2
  ch3 := payloadChannel payload 3
  ch4 := payloadChannel payload 4
  ch5 := payloadChannel payload 5

/-- R80: how many complete channel fields a frame with length byte `fb` holds. -/
def channelFieldCount (fb : Byte) : Nat := (fb.toNat - 4) / 2

/-- R83: `FRAME(cmd; ps)`, defined for at most 28 bytes `ps`. -/
def frameOf (cmd : Byte) (ps : List Byte) : List Byte :=
  let fb : Byte := BitVec.ofNat 8 (ps.length + 4)
  let c : Half := BitVec.ofNat 16 (wireChecksum fb (cmd :: ps))
  wireFrame fb (cmd :: ps) (lowByte c) (highByte c)

/-- R83: 16-bit channel values as channel data, low byte first. -/
def channelBytes : List Half → List Byte
  | [] => []
  | c :: cs => lowByte c :: highByte c :: channelBytes cs

/-- R83: `CH6(c0, ..., c5)`, a 16-byte frame. -/
def ch6Frame (c : Channels) : List Byte :=
  frameOf cmdSetChannelsCode (channelBytes [c.ch0, c.ch1, c.ch2, c.ch3, c.ch4, c.ch5])

/-- R83: `CH14`, the same form with the channel values `cs`, 14 of them for a 32-byte frame. -/
def ch14Frame (cs : List Half) : List Byte := frameOf cmdSetChannelsCode (channelBytes cs)

/-- A byte stream as port cycles, one byte a cycle (R204). -/
def byteCycles (bs : List Byte) : List PortIn := bs.map byteCycle

/-- R82: the bit of a direction. -/
def dirCode : Dir → BitVec 1
  | .forward => 0
  | .backward => 1

/-- R82: the output ports. -/
structure PortOut where
  ch0 : Half
  ch1 : Half
  ch2 : Half
  ch3 : Half
  ch4 : Half
  ch5 : Half
  aSpeed : Half
  bSpeed : Half
  aDir : BitVec 1
  bDir : BitVec 1
deriving DecidableEq, Repr

/-- R82, R153, R206: the outputs show the registers, straight. -/
def portOut (s : State) : PortOut where
  ch0 := s.channels.ch0
  ch1 := s.channels.ch1
  ch2 := s.channels.ch2
  ch3 := s.channels.ch3
  ch4 := s.channels.ch4
  ch5 := s.channels.ch5
  aSpeed := s.motorA.speed
  bSpeed := s.motorB.speed
  aDir := dirCode s.motorA.dir
  bDir := dirCode s.motorB.dir

/-- R190, R210: the steps one clock cycle takes: one for a reset, one for each of a tick and a byte, one for a cycle that
presents nothing. -/
def PortIn.steps (p : PortIn) : Nat :=
  if p.rst then 1 else if p.tick && p.inValid then 2 else 1

end Sys2Proof.Machine
end

