-- ==== Sys2Proof/Safety.lean ====
section
/-! DEFINITION. The terms in which claims speak of runs: steps in a row, the invariants of 10_state.md R32, and what of a
state can be observed (R33). -/

namespace Sys2Proof.Machine

/-- `n` steps in a row, stopping at the first refusal. -/
def run : Nat → State → Host.Outcome State Fault Refusal
  | 0, s => .next s
  | n + 1, s =>
    match step s with
    | .next t => run n t
    | .fault r => .fault r
    | .refused r => .refused r

/-- The steps that a list of port cycles takes. -/
def stepsOf : List PortIn → Nat
  | [] => 0
  | p :: ps => p.steps + stepsOf ps

/-! ### What an event leaves as it was -/

/-- The frame registers `len`, `ptr`, `csum`, `cklo` are as before. -/
structure FrameRegsKept (s t : State) : Prop where
  len : t.len = s.len
  ptr : t.ptr = s.ptr
  csum : t.csum = s.csum
  cklo : t.cklo = s.cklo

/-- Every buffer entry reads as before. -/
def BufKept (s t : State) : Prop := ∀ a, Memory.read t.buf a = Memory.read s.buf a

/-- Both Motor records are as before. -/
structure MotorsKept (s t : State) : Prop where
  motorA : t.motorA = s.motorA
  motorB : t.motorB = s.motorB

/-- The configuration and the port cycles still waiting are as before. -/
structure EnvKept (s t : State) : Prop where
  cfg : t.cfg = s.cfg
  inputs : t.inputs = s.inputs

/-- The whole decoder, but for the channels, is as before. -/
structure DecoderKept (s t : State) : Prop where
  phase : t.phase = s.phase
  regs : FrameRegsKept s t
  buf : BufKept s t

/-! ### The mixer's values in closed form -/

/-- R147: `N(v) = floor(((v - 1000) * DUTY_MAX + 500) / 1000)` in range, else the sentinel 0. -/
def speedOf (dutyMax : Half) (v : Int) : Int :=
  if 1000 ≤ v ∧ v ≤ 2000 ∧ 0 < dutyMax.toNat then ((v - 1000) * dutyMax.toNat + 500) / 1000 else 0

/-- R145, R146: ten times `round(turn_amount / 5)`, the rounding written as `floor((2 * turn_amount + 5) / 10)`. -/
def reductionOf (turnAmount : Int) : Int := 10 * ((2 * turnAmount + 5) / 10)

/-- R157: the ranges of the mixer's intermediate values for a turn amount `a` and a throttle. -/
structure InMixerWidths (throttle : Half) (a : Int) : Prop where
  turnAmount : 10 ≤ a ∧ a ≤ 64035
  turnPct : 2 ≤ Machine.turnPct a ∧ Machine.turnPct a ≤ 12807
  reduction : 20 ≤ Machine.reduction (Machine.turnPct a) ∧ Machine.reduction (Machine.turnPct a) ≤ 128070
  argument : -128070 ≤ (throttle.toNat : Int) - Machine.reduction (Machine.turnPct a) ∧
    (throttle.toNat : Int) - Machine.reduction (Machine.turnPct a) ≤ 65515

/-! ### Invariants -/

/-- The exact sum of the first `n` buffer entries. -/
def bufSum (m : Memory) : Nat → Nat
  | 0 => 0
  | n + 1 => bufSum m n + (Memory.read m n).toNat

/-- R32: the running checksum has subtracted the length byte and the first `n` payload bytes, with no wrap-around. -/
def CsumCounts (s : State) (n : Nat) : Prop := s.csum.toNat + (s.len.toNat + 3) + bufSum s.buf n = 0xFFFF

/-- R22, R23, R32: what holds of the frame registers in each phase. -/
def FrameInv (s : State) : Prop :=
  match s.phase with
  | .idle => True
  | .accum => 1 ≤ s.len.toNat ∧ s.len.toNat ≤ 29 ∧ s.ptr.toNat < s.len.toNat ∧ CsumCounts s s.ptr.toNat
  | .ckLo => 1 ≤ s.len.toNat ∧ s.len.toNat ≤ 29 ∧ s.ptr = s.len ∧ CsumCounts s s.len.toNat
  | .ckHi => 1 ≤ s.len.toNat ∧ s.len.toNat ≤ 29 ∧ s.ptr = s.len ∧ CsumCounts s s.len.toNat

/-- R26, R57: the buffer keeps its canonical form and its entries 29 to 31 are never written. -/
def BufInv (s : State) : Prop :=
  Memory.wf s.buf = true ∧ ∀ a, 29 ≤ a → Memory.read s.buf a = Memory.unlisted

/-- R32, R151: a motor's speed is within the configured range and its direction is forward. -/
def MotorInv (cfg : Config) (m : Motor) : Prop := m.speed.toNat ≤ cfg.dutyMax.toNat ∧ m.dir = .forward

/-- R32: the invariants of every reachable state. -/
structure Inv (s : State) : Prop where
  frame : FrameInv s
  buf : BufInv s
  motorA : MotorInv s.cfg s.motorA
  motorB : MotorInv s.cfg s.motorB

/-- R33: two states that no sequence of events can tell apart: they agree on everything but the frame registers and the
buffer, and on those as far as the current phase can still read them. -/
structure SameObservable (s t : State) : Prop where
  phase : s.phase = t.phase
  channels : s.channels = t.channels
  motorA : s.motorA = t.motorA
  motorB : s.motorB = t.motorB
  cfg : s.cfg = t.cfg
  inputs : s.inputs = t.inputs
  frame : s.phase ≠ .idle → s.len = t.len ∧ s.ptr = t.ptr ∧ s.csum = t.csum ∧
    ∀ a, a < s.ptr.toNat → Memory.read s.buf a = Memory.read t.buf a
  held : s.phase = .ckHi → s.cklo = t.cklo

/-- Two byte lists that differ in exactly one byte. -/
def OneByteChanged (l l' : List Byte) : Prop :=
  ∃ (pre post : List Byte) (x y : Byte), l = pre ++ x :: post ∧ l' = pre ++ y :: post ∧ x ≠ y

end Sys2Proof.Machine
end

