-- ==== Sys2Proof/Certificates/Slice0/Obligations.lean ====
section
/-! DEFINITION. The statements for the provers, each formalising what spec/ says the block does. -/

open Sys2Proof Sys2Proof.Machine

/-! ### Steps and events -/

/-- R60, R71, R100: a step is the row its fetched word decodes to, run with that event taken from the cycles waiting (the
list of waiting cycles is the model's, log 1). -/
def Obligations.StepRunsDecodedInstruction : Prop :=
  ∀ (s : State) (w : TableWord) (rest : List PortIn) (i : Instr),
    s.cfg.admitted = true → fetchWord s = some (w, rest) → decode (decodeCtx s) w = .ok i → i.wf = true →
    step s = exec i (withInputs rest s)

/-- R190, R201, R205: which event a cycle presents next, and what of the cycle is left. A reset loses the rest of its
cycle; a tick comes before the byte of its cycle. Ticks and resets decode to their rows whatever the registers hold. How
a cycle is held is the model's choice (log 1); the order is the spec's decisions D9 and D10. -/
def Obligations.CyclePresentsItsEventsInOrder : Prop :=
  ∀ (s : State) (p : PortIn) (rest : List PortIn), s.inputs = p :: rest →
    (p.rst = true → ∃ w, fetchWord s = some (w, rest) ∧ decode (decodeCtx s) w = .ok .reset) ∧
    (p.rst = false → p.tick = true → p.inValid = true →
      ∃ w, fetchWord s = some (w, byteCycle p.inByte :: rest) ∧ decode (decodeCtx s) w = .ok .mixTick) ∧
    (p.rst = false → p.tick = true → p.inValid = false →
      ∃ w, fetchWord s = some (w, rest) ∧ decode (decodeCtx s) w = .ok .mixTick) ∧
    (p.rst = false → p.tick = false → p.inValid = true →
      ∃ w, fetchWord s = some (w, rest) ∧
        decode (decodeCtx s) w = .ok (decodeByte (decodeCtx s) s.phase p.inByte)) ∧
    (p.rst = false → p.tick = false → p.inValid = false → fetchWord s = none)

/-- R180: no input makes the block stop. Every step of an admitted configuration answers a next state, and every word a
step fetches is a row with a well-formed operand. -/
def Obligations.EveryStepCompletes : Prop :=
  (∀ s : State, s.cfg.admitted = true → ∃ t, step s = .next t) ∧
  ∀ (s : State) (w : TableWord) (rest : List PortIn), fetchWord s = some (w, rest) →
    ∃ i, decode (decodeCtx s) w = .ok i ∧ i.wf = true ∧ i.guard (decodeCtx s) = true

/-- R152: a configuration whose DIR_MODE is not ALWAYS_FORWARD is refused, and no tick result exists for it. Where the
check stands is the model's choice (log 4). -/
def Obligations.OtherDirectionModeIsRefused : Prop :=
  ∀ s : State, s.cfg.dirMode = .throttleBand →
    step s = .refused .dirModeNotAdmitted ∧
    ∀ i ∈ [Instr.mixTick, .mixStraight, .mixRight, .mixLeft], exec i s = .refused .dirModeNotAdmitted

/-- R195: with no event the block holds its state. A cycle that presents nothing is taken (log 1). -/
def Obligations.NoEventHoldsTheState : Prop :=
  ∀ s : State, s.cfg.admitted = true →
    (s.inputs = [] → step s = .next s) ∧
    ∀ (b : Byte) (rest : List PortIn),
      s.inputs = { rst := false, tick := false, inValid := false, inByte := b } :: rest →
      ∃ t, step s = .next t ∧ DecoderKept s t ∧ t.channels = s.channels ∧ MotorsKept s t ∧ t.cfg = s.cfg ∧
        t.inputs = rest

/-- R201 (the spec's decision D10): a cycle with `rst` performs RESET and nothing else; its tick and its byte are
lost. Every register has its reset value after it (R200). -/
def Obligations.ResetCycleLosesItsTickAndByte : Prop :=
  ∀ (s : State) (tick inValid : Bool) (b : Byte) (rest : List PortIn), s.cfg.admitted = true →
    s.inputs = { rst := true, tick := tick, inValid := inValid, inByte := b } :: rest →
    step s = exec .reset (withInputs rest s) ∧
    ∃ t, step s = .next t ∧ t.phase = .idle ∧ t.len = 0 ∧ t.ptr = 0 ∧ t.csum = 0 ∧ t.cklo = 0 ∧
      t.channels = Channels.zero ∧ t.motorA = Motor.stopped ∧ t.motorB = Motor.stopped ∧
      (∀ a, Memory.read t.buf a = 0) ∧ t.cfg = s.cfg ∧ t.inputs = rest

/-- R205: in one cycle with a tick and a byte both take effect, the tick on the channels from before the byte: the motors
are those of a tick on the state before the cycle, and everything else is as the byte alone leaves it (the spec's decision
D9; that the cycle takes two steps is the model's choice, log 10). -/
def Obligations.TickReadsChannelsFromBeforeItsCyclesByte : Prop :=
  ∀ (s : State) (b : Byte) (rest : List PortIn), s.cfg.admitted = true →
    s.inputs = { rst := false, tick := true, inValid := true, inByte := b } :: rest →
    ∃ u v, exec .mixTick s = .next u ∧ exec (decodeByte (decodeCtx s) s.phase b) s = .next v ∧
      run 2 s = .next { v with motorA := u.motorA, motorB := u.motorB, inputs := rest }

/-- R29: no event writes DUTY_MAX or DIR_MODE. -/
def Obligations.NoEventWritesTheConfiguration : Prop :=
  (∀ s t : State, step s = .next t → t.cfg = s.cfg) ∧ ∀ (i : Instr) (s t : State), exec i s = .next t → t.cfg = s.cfg

/-! ### The decoder rows -/

/-- R101. -/
def Obligations.IdleLenAcceptStartsAFrame : Prop :=
  ∀ (b : Byte) (s : State), 3 < b.toNat → b.toNat ≤ 32 →
    (s.phase = .idle → decodeByte (decodeCtx s) s.phase b = .idleLenAccept b) ∧
    ∃ t, exec (.idleLenAccept b) s = .next t ∧
      t.len.toNat = b.toNat - 3 ∧ 1 ≤ t.len.toNat ∧ t.len.toNat ≤ 29 ∧
      t.csum.toNat = 0xFFFF - b.toNat ∧ 0xFFDF ≤ t.csum.toNat ∧ t.csum.toNat ≤ 0xFFFB ∧
      t.ptr = 0 ∧ t.phase = .accum ∧
      t.cklo = s.cklo ∧ BufKept s t ∧ t.channels = s.channels ∧ MotorsKept s t ∧ EnvKept s t

/-- R102: a byte that cannot begin a frame leaves no trace in the state. -/
def Obligations.IdleDropLeavesNoTrace : Prop :=
  ∀ (b : Byte) (s : State), (b.toNat ≤ 3 ∨ 32 < b.toNat) →
    (s.phase = .idle → decodeByte (decodeCtx s) s.phase b = .idleDrop b) ∧ exec (.idleDrop b) s = .next s

/-- R103, for the registers that ACCUM can meet (`ptr < len`, R23). -/
def Obligations.AccumByteStoresAndSubtracts : Prop :=
  ∀ (b : Byte) (s : State), s.phase = .accum → s.ptr.toNat < s.len.toNat → Memory.wf s.buf = true →
    decodeByte (decodeCtx s) s.phase b = .accumByte b ∧
    ∃ t, exec (.accumByte b) s = .next t ∧
      Memory.read t.buf s.ptr.toNat = b ∧
      (∀ a, a ≠ s.ptr.toNat → Memory.read t.buf a = Memory.read s.buf a) ∧
      t.csum.toNat = (s.csum.toNat + 65536 - b.toNat) % 65536 ∧
      t.ptr.toNat = s.ptr.toNat + 1 ∧
      (s.ptr.toNat + 1 = s.len.toNat → t.phase = .ckLo) ∧ (s.ptr.toNat + 1 ≠ s.len.toNat → t.phase = .accum) ∧
      t.len = s.len ∧ t.cklo = s.cklo ∧ t.channels = s.channels ∧ MotorsKept s t ∧ EnvKept s t

/-- R104 (the spec's decision D3 splits the checksum state in two). -/
def Obligations.CkloByteHoldsTheLowByte : Prop :=
  ∀ (b : Byte) (s : State),
    (s.phase = .ckLo → decodeByte (decodeCtx s) s.phase b = .ckloByte b) ∧
    ∃ t, exec (.ckloByte b) s = .next t ∧ t.cklo = b ∧ t.phase = .ckHi ∧ t.len = s.len ∧ t.ptr = s.ptr ∧
      t.csum = s.csum ∧ BufKept s t ∧ t.channels = s.channels ∧ MotorsKept s t ∧ EnvKept s t

/-- R105, R110: the commit publishes six little-endian lanes of buffer entries 1 to 12 and goes back to IDLE; R100: it is
the row of a high byte that completes a matching command-0x40 frame with `len >= 13` (the spec's decision D6). -/
def Obligations.CkhiCommitPublishesSixChannels : Prop :=
  ∀ (b : Byte) (s : State),
    (s.phase = .ckHi → s.cklo.toNat + 256 * b.toNat = s.csum.toNat → Memory.read s.buf 0 = 0x40 → 13 ≤ s.len.toNat →
      decodeByte (decodeCtx s) s.phase b = .ckhiCommit b) ∧
    ∃ t, exec (.ckhiCommit b) s = .next t ∧
      (∀ i : Fin 6, (t.channels.get i).toNat =
        (Memory.read s.buf (1 + 2 * i.val)).toNat + 256 * (Memory.read s.buf (2 + 2 * i.val)).toNat) ∧
      t.phase = .idle ∧ FrameRegsKept s t ∧ BufKept s t ∧ MotorsKept s t ∧ EnvKept s t

/-- R106, R107: a frame whose checksum does not match, and a matching frame whose command is not 0x40, end in IDLE with
every register but `phase` as it was; the checksum is examined before the command. -/
def Obligations.CkhiRejectAndDiscardOnlyReturnToIdle : Prop :=
  ∀ (b : Byte) (s : State),
    (s.phase = .ckHi → s.cklo.toNat + 256 * b.toNat ≠ s.csum.toNat →
      decodeByte (decodeCtx s) s.phase b = .ckhiReject b) ∧
    (s.phase = .ckHi → s.cklo.toNat + 256 * b.toNat = s.csum.toNat → Memory.read s.buf 0 ≠ 0x40 →
      decodeByte (decodeCtx s) s.phase b = .ckhiDiscardCmd b) ∧
    ∀ i ∈ [Instr.ckhiReject b, .ckhiDiscardCmd b], ∃ t, exec i s = .next t ∧ t.phase = .idle ∧ FrameRegsKept s t ∧
      BufKept s t ∧ t.channels = s.channels ∧ MotorsKept s t ∧ EnvKept s t

/-- R108 (the spec's decision D6): a matching command-0x40 frame with fewer than six channel fields is discarded. -/
def Obligations.CkhiShortFrameIsDiscarded : Prop :=
  ∀ (b : Byte) (s : State),
    (s.phase = .ckHi → s.cklo.toNat + 256 * b.toNat = s.csum.toNat → Memory.read s.buf 0 = 0x40 → s.len.toNat < 13 →
      decodeByte (decodeCtx s) s.phase b = .ckhiDiscardShort b) ∧
    ∃ t, exec (.ckhiDiscardShort b) s = .next t ∧ t.phase = .idle ∧ FrameRegsKept s t ∧ BufKept s t ∧
      t.channels = s.channels ∧ MotorsKept s t ∧ EnvKept s t

/-- R111, R112: what a command byte does to the frame that carries it. The byte that completes a matching frame does what
the row of `buf[0]` does; 0x40 commits, or discards a frame with `len < 13`; every other value only discards. That the
rows of the command byte stand for the whole event is the model's choice (log 7). -/
def Obligations.CommandByteDecidesTheFrame : Prop :=
  ∀ (b : Byte) (s : State),
    (s.phase = .ckHi → s.cklo.toNat + 256 * b.toNat = s.csum.toNat →
      exec (decodeByte (decodeCtx s) s.phase b) s = exec (decodeCommand (Memory.read s.buf 0)) s) ∧
    (∃ t, exec .cmdSetChannels s = .next t ∧ t.phase = .idle ∧
      (13 ≤ s.len.toNat → ∀ i : Fin 6, (t.channels.get i).toNat =
        (Memory.read s.buf (1 + 2 * i.val)).toNat + 256 * (Memory.read s.buf (2 + 2 * i.val)).toNat) ∧
      (s.len.toNat < 13 → t.channels = s.channels) ∧
      FrameRegsKept s t ∧ BufKept s t ∧ MotorsKept s t ∧ EnvKept s t) ∧
    ∀ cmd : Byte, cmd ≠ 0x40 → ∃ t, exec (.cmdUnrecognised cmd) s = .next t ∧ t.phase = .idle ∧
      t.channels = s.channels ∧ FrameRegsKept s t ∧ BufKept s t ∧ MotorsKept s t ∧ EnvKept s t

/-! ### RESET -/

/-- R200 (the spec's decisions D5, D7, D19): the reset value of every register; the parameters are left alone. -/
def Obligations.ResetWritesEveryRegister : Prop :=
  ∀ s : State, ∃ t, exec .reset s = .next t ∧ t.phase = .idle ∧ t.len = 0 ∧ t.ptr = 0 ∧ t.csum = 0 ∧ t.cklo = 0 ∧
    (∀ a, Memory.read t.buf a = 0) ∧ (∀ i : Fin 6, t.channels.get i = 0) ∧
    t.motorA.speed = 0 ∧ t.motorA.dir = .forward ∧ t.motorB.speed = 0 ∧ t.motorB.dir = .forward ∧ EnvKept s t

/-! ### The mixer rows -/

/-- R148: in the dead-band, 1491 to 1509, both motors get N(throttle), ties rounded up (the spec's decision D12). -/
def Obligations.MixStraightGivesBothMotorsFullSpeed : Prop :=
  ∀ s : State, s.cfg.admitted = true →
    (steerBand s.channels.ch0 = .straight ↔ 1490 < s.channels.ch0.toNat ∧ s.channels.ch0.toNat < 1510) ∧
    ∃ t, exec .mixStraight s = .next t ∧
      (t.motorA.speed.toNat : Int) = speedOf s.cfg.dutyMax s.channels.ch2.toNat ∧
      (t.motorB.speed.toNat : Int) = speedOf s.cfg.dutyMax s.channels.ch2.toNat ∧
      t.motorA.dir = .forward ∧ t.motorB.dir = .forward ∧
      DecoderKept s t ∧ t.channels = s.channels ∧ EnvKept s t

/-- R149: from 1510 up, motor A gets N(throttle) and motor B gets N(throttle - reduction). The band beyond 2000 and the tie
rule are the spec's decisions D13 and D12. -/
def Obligations.MixRightReducesMotorB : Prop :=
  ∀ s : State, s.cfg.admitted = true →
    (steerBand s.channels.ch0 = .right ↔ 1510 ≤ s.channels.ch0.toNat) ∧
    ∃ t, exec .mixRight s = .next t ∧
      (t.motorA.speed.toNat : Int) = speedOf s.cfg.dutyMax s.channels.ch2.toNat ∧
      (t.motorB.speed.toNat : Int) =
        speedOf s.cfg.dutyMax ((s.channels.ch2.toNat : Int) - reductionOf ((s.channels.ch0.toNat : Int) - 1500)) ∧
      t.motorA.dir = .forward ∧ t.motorB.dir = .forward ∧
      DecoderKept s t ∧ t.channels = s.channels ∧ EnvKept s t

/-- R150: up to 1490, motor A gets N(throttle - reduction) and motor B gets N(throttle). The band below 1000 and the tie
rule are the spec's decisions D13 and D12. -/
def Obligations.MixLeftReducesMotorA : Prop :=
  ∀ s : State, s.cfg.admitted = true →
    (steerBand s.channels.ch0 = .left ↔ s.channels.ch0.toNat ≤ 1490) ∧
    ∃ t, exec .mixLeft s = .next t ∧
      (t.motorA.speed.toNat : Int) =
        speedOf s.cfg.dutyMax ((s.channels.ch2.toNat : Int) - reductionOf (1500 - (s.channels.ch0.toNat : Int))) ∧
      (t.motorB.speed.toNat : Int) = speedOf s.cfg.dutyMax s.channels.ch2.toNat ∧
      t.motorA.dir = .forward ∧ t.motorB.dir = .forward ∧
      DecoderKept s t ∧ t.channels = s.channels ∧ EnvKept s t

/-- R140: a tick is the rule of the band its steer falls in, over all 65536 values; it writes no decoder register and no
channel. -/
def Obligations.MixTickRunsItsBandsRule : Prop :=
  ∀ s : State, s.cfg.admitted = true →
    (1510 ≤ s.channels.ch0.toNat → exec .mixTick s = exec .mixRight s) ∧
    (s.channels.ch0.toNat ≤ 1490 → exec .mixTick s = exec .mixLeft s) ∧
    (1490 < s.channels.ch0.toNat → s.channels.ch0.toNat < 1510 → exec .mixTick s = exec .mixStraight s) ∧
    ∃ t, exec .mixTick s = .next t ∧ t.motorA.dir = .forward ∧ t.motorB.dir = .forward ∧
      DecoderKept s t ∧ t.channels = s.channels ∧ EnvKept s t

/-- R147 (decisions D12, D17 of the spec): normalize has a value exactly when the input is in range and neither range is
empty, that value is the exact rational rounded with ties up, and the sentinel drives speed 0. -/
def Obligations.NormalizeRoundsTheExactRational : Prop :=
  ∀ v oldMin oldMax newMin newMax : Int,
    ((mixerNormalize v oldMin oldMax newMin newMax).ok = true ↔
      oldMin ≤ v ∧ v ≤ oldMax ∧ newMin < newMax ∧ oldMin ≠ oldMax) ∧
    ((mixerNormalize v oldMin oldMax newMin newMax).ok = true →
      (mixerNormalize v oldMin oldMax newMin newMax).speed =
        ⌊((v - oldMin : ℚ) * (newMax - newMin) / (oldMax - oldMin) + newMin) + 1 / 2⌋) ∧
    ((mixerNormalize v oldMin oldMax newMin newMax).ok = false → (mixerNormalize v oldMin oldMax newMin newMax).speed = 0)

/-- R145, R146: the turn percentage is the exact `turn_amount / 500 * 100` rounded, which is never a tie, and the
reduction is ten times it. -/
def Obligations.TurnReductionIsExact : Prop :=
  ∀ a : Int,
    turnPct a = ⌊(a : ℚ) / 500 * 100 + 1 / 2⌋ ∧
    (∀ k : Int, (a : ℚ) / 5 ≠ k + 1 / 2) ∧
    (∀ p : Int, (reduction p : ℚ) = 1000 * p / 100) ∧
    reduction (turnPct a) = reductionOf a

/-- R157: the range of every intermediate value of the mixer, for every steer of a turning band and every throttle. -/
def Obligations.MixerIntermediatesStayInTheirWidths : Prop :=
  (∀ steer throttle : Half,
    (1510 ≤ steer.toNat → InMixerWidths throttle (turnAmountRight steer.toNat)) ∧
    (steer.toNat ≤ 1490 → InMixerWidths throttle (turnAmountLeft steer.toNat))) ∧
  ∀ (dutyMax : Half) (v : Int), 1000 ≤ v → v ≤ 2000 →
    0 ≤ (v - 1000) * dutyMax.toNat ∧ (v - 1000) * dutyMax.toNat ≤ 65535000

/-- R151, R142: after any tick each speed is in `[0, DUTY_MAX]` and each direction is forward. -/
def Obligations.TickOutputsAreBoundedAndForward : Prop :=
  ∀ (i : Instr) (s t : State), i ∈ [Instr.mixTick, .mixStraight, .mixRight, .mixLeft] → exec i s = .next t →
    MotorInv s.cfg t.motorA ∧ MotorInv s.cfg t.motorB

/-- R156: a tick's result depends only on `channels[0]`, `channels[2]` and DUTY_MAX, never on earlier Motor values. -/
def Obligations.TickDependsOnlyOnSteerThrottleAndDutyMax : Prop :=
  ∀ s s' : State, s.cfg.admitted = true → s'.cfg.admitted = true →
    s.channels.ch0 = s'.channels.ch0 → s.channels.ch2 = s'.channels.ch2 → s.cfg.dutyMax = s'.cfg.dutyMax →
    ∃ t t', exec .mixTick s = .next t ∧ exec .mixTick s' = .next t' ∧ t.motorA = t'.motorA ∧ t.motorB = t'.motorB

/-- R155, R149, R150: with a throttle of at most 2000 the motor on the inside of the turn is not the faster one, and a
full turn stops it. -/
def Obligations.TurnSlowsTheInsideMotor : Prop :=
  ∀ s t : State, s.channels.ch2.toNat ≤ 2000 → exec .mixTick s = .next t →
    (1510 ≤ s.channels.ch0.toNat → t.motorB.speed.toNat ≤ t.motorA.speed.toNat) ∧
    (2000 ≤ s.channels.ch0.toNat → t.motorB.speed = 0) ∧
    (s.channels.ch0.toNat ≤ 1490 → t.motorA.speed.toNat ≤ t.motorB.speed.toNat) ∧
    (s.channels.ch0.toNat ≤ 1000 → t.motorA.speed = 0)

/-- R202: with no commit since reset a tick writes speed 0 and forward to both motors, the reset values. -/
def Obligations.TickBeforeTheFirstCommitStopsBothMotors : Prop :=
  ∀ s : State, s.cfg.admitted = true → s.channels = Channels.zero →
    ∃ t, exec .mixTick s = .next t ∧ t.motorA = Motor.stopped ∧ t.motorB = Motor.stopped

/-! ### Decoding and encoding -/

/-- R71, R84: decoding the word of a well-formed row gives the row back, with its operand, in every context in which the
row's guard holds. -/
def Obligations.DecodeGivesBackWhatWasEncoded : Prop :=
  ∀ (ctx : DecodeCtx) (i : Instr), i.wf = true → i.guard ctx = true → decode ctx (encode i) = .ok i

/-- R71: a decoded word is well-formed, its guard holds, and the word matches its row in the opcode table. -/
def Obligations.DecodedRowMatchesTheTable : Prop :=
  ∀ (ctx : DecodeCtx) (w : TableWord) (i : Instr), decode ctx w = .ok i →
    i.wf = true ∧ i.rowMatches ctx w.bits = true

/-- R71, R78, R143: exactly one row of the opcode table matches every pair (state, byte), every command byte and every
steer of a tick, and it is the row the decoder answers. -/
def Obligations.ExactlyOneRowMatches : Prop :=
  (∀ (ctx : DecodeCtx) (p : Phase) (b : Byte),
    (byteRows b).filter (Instr.rowMatches ctx (decodeWordOf p b).toNat) = [decodeByte ctx p b]) ∧
  (∀ (ctx : DecodeCtx) (cmd : Byte),
    (commandRows cmd).filter (Instr.rowMatches ctx cmd.toNat) = [decodeCommand cmd]) ∧
  ∀ (ctx : DecodeCtx) (inValid : Bool),
    bandRows.filter (Instr.rowMatches ctx (portVector false true inValid).toNat) = [decodeBand (steerBand ctx.steer)]

/-- R74: the bytes accepted in IDLE as a length byte are exactly 0x04 to 0x20, and the payload count is `fb - 3`. -/
def Obligations.LengthByteRange : Prop :=
  ∀ (s : State) (fb : Byte), s.phase = .idle →
    (decodeByte (decodeCtx s) s.phase fb = .idleLenAccept fb ↔ 3 < fb.toNat ∧ fb.toNat ≤ 32) ∧
    (3 < fb.toNat → fb.toNat ≤ 32 →
      ∃ t, exec (.idleLenAccept fb) s = .next t ∧ t.len.toNat + 3 = fb.toNat ∧ 1 ≤ t.len.toNat ∧ t.len.toNat ≤ 29)

/-- R71, R84: a word of each family, written out from the opcode table, decodes to its row in the registers of reset (that
context is the model's choice, log 6). -/
def Obligations.TableWordsDecodeToTheirRows : Prop :=
  decodeTableWord 10 0b0000010000 = some (.idleLenAccept 0x10) ∧
  decodeTableWord 10 0b0001000000 = some (.idleDrop 0x40) ∧
  decodeTableWord 10 0b0101000000 = some (.accumByte 0x40) ∧
  decodeTableWord 10 0b1001111101 = some (.ckloByte 0x7D) ∧
  decodeTableWord 10 0b1111111010 = some (.ckhiReject 0xFA) ∧
  decodeTableWord 8 0x40 = some .cmdSetChannels ∧
  decodeTableWord 8 0x41 = some (.cmdUnrecognised 0x41) ∧
  decodeTableWord 3 0b010 = some .mixTick ∧
  decodeTableWord 3 0b100 = some .reset

/-- Log 2, the model's own convention: a word put where the next step takes it is the one that runs. -/
def Obligations.PlacedWordIsTheOneThatRuns : Prop :=
  ∀ s : State, s.cfg.admitted = true →
    (∀ (p : Phase) (b : Byte), step (placeWord (.dw10 (decodeWordOf p b)) s) =
      exec (decodeByte (decodeCtx s) p b) { s with phase := p }) ∧
    (∀ cmd : Byte, Memory.wf s.buf = true → step (placeWord (.cmd8 cmd) s) =
      exec (decodeCommand cmd) { s with phase := .ckHi, buf := bufWrite s.buf 0 cmd, cklo := lowByte s.csum }) ∧
    step (placeWord (.ev3 0b010) s) = exec .mixTick s ∧
    step (placeWord (.ev3 0b100) s) = exec .reset s

/-! ### The decoder over many steps -/

/-- R32: every step keeps the invariants of the frame registers, the buffer and the motors. -/
def Obligations.EveryStepKeepsTheStateInvariant : Prop :=
  ∀ s t : State, Inv s → step s = .next t → Inv t

/-- R200, R32: the state after reset meets the invariants, whatever the configuration. -/
def Obligations.ResetMeetsTheStateInvariant : Prop :=
  (∀ cfg : Config, Inv (State.resetWith cfg)) ∧ Inv State.reset

/-- R115: inside a frame the running checksum never wraps. -/
def Obligations.ChecksumSubtractionNeverWraps : Prop :=
  ∀ (s : State) (b : Byte), Inv s →
    (s.phase ≠ .idle → 0xE2FC ≤ s.csum.toNat) ∧
    (s.phase = .accum → ∃ t, exec (.accumByte b) s = .next t ∧ b.toNat ≤ s.csum.toNat ∧
      t.csum.toNat = s.csum.toNat - b.toNat ∧ 0xE2FC ≤ t.csum.toNat)

/-- R76, R79, R100, R114, R117: from IDLE a frame of `fb` bytes takes `fb` steps and is decided by the wire-level
predicate alone. It publishes its six channel fields when it is valid, its command is 0x40 and `fb >= 16`, and else leaves
the channels; it never touches the motors. -/
def Obligations.FrameIsDecidedByItsWireBytes : Prop :=
  ∀ (s : State) (fb lo hi : Byte) (payload : List Byte) (rest : List PortIn),
    s.cfg.admitted = true → Memory.wf s.buf = true → s.phase = .idle →
    3 < fb.toNat → fb.toNat ≤ 32 → payload.length + 3 = fb.toNat →
    s.inputs = byteCycles (wireFrame fb payload lo hi) ++ rest →
    ∃ t, run fb.toNat s = .next t ∧ t.phase = .idle ∧ t.inputs = rest ∧ t.cfg = s.cfg ∧ MotorsKept s t ∧
      t.channels =
        if wireValid fb payload lo hi = true ∧ payload.head? = some 0x40 ∧ 16 ≤ fb.toNat then payloadChannels payload
        else s.channels

/-- R118: feeding the frame that encodes any six channel values yields exactly those values. -/
def Obligations.SixChannelFrameRoundTrip : Prop :=
  ∀ (s : State) (c : Channels) (rest : List PortIn),
    s.cfg.admitted = true → Memory.wf s.buf = true → s.phase = .idle →
    s.inputs = byteCycles (ch6Frame c) ++ rest →
    ∃ t, run 16 s = .next t ∧ t.phase = .idle ∧ t.inputs = rest ∧ t.channels = c ∧ MotorsKept s t

/-- R114: a valid frame with any single payload or checksum byte changed, to any other value, is discarded. -/
def Obligations.SingleChangedByteIsAlwaysDetected : Prop :=
  ∀ (s : State) (fb lo hi lo' hi' : Byte) (payload payload' : List Byte) (rest : List PortIn),
    s.cfg.admitted = true → Memory.wf s.buf = true → s.phase = .idle →
    3 < fb.toNat → fb.toNat ≤ 32 → payload.length + 3 = fb.toNat → payload'.length + 3 = fb.toNat →
    wireValid fb payload lo hi = true → OneByteChanged (payload ++ [lo, hi]) (payload' ++ [lo', hi']) →
    s.inputs = byteCycles (wireFrame fb payload' lo' hi') ++ rest →
    ∃ t, run fb.toNat s = .next t ∧ t.phase = .idle ∧ t.inputs = rest ∧ t.channels = s.channels ∧ MotorsKept s t

/-- R62: feeding the same frame a second time leaves the channels as the first time left them. -/
def Obligations.SameFrameTwiceGivesTheSameChannels : Prop :=
  ∀ (s : State) (fb lo hi : Byte) (payload : List Byte) (rest : List PortIn),
    s.cfg.admitted = true → Memory.wf s.buf = true → s.phase = .idle →
    3 < fb.toNat → fb.toNat ≤ 32 → payload.length + 3 = fb.toNat →
    s.inputs = byteCycles (wireFrame fb payload lo hi) ++ (byteCycles (wireFrame fb payload lo hi) ++ rest) →
    ∃ t u, run fb.toNat s = .next t ∧ run (fb.toNat + fb.toNat) s = .next u ∧ u.channels = t.channels ∧
      u.phase = .idle ∧ u.inputs = rest

/-- R209, R79: a byte taken as a length byte `fb` holds the decoder for exactly `fb - 1` more bytes, whatever they are. -/
def Obligations.LengthByteHoldsTheDecoderExactly : Prop :=
  ∀ (s : State) (fb : Byte) (bs : List Byte) (rest : List PortIn),
    s.cfg.admitted = true → s.phase = .idle → 3 < fb.toNat → fb.toNat ≤ 32 → bs.length + 1 = fb.toNat →
    s.inputs = byteCycles (fb :: bs) ++ rest →
    (∀ k, 1 ≤ k → k < fb.toNat → ∃ t, run k s = .next t ∧ t.phase ≠ .idle) ∧
    ∃ t, run fb.toNat s = .next t ∧ t.phase = .idle ∧ t.inputs = rest

/-- R31: a BYTE event advances the phase along IDLE, ACCUM, CK_LO, CK_HI, IDLE or leaves it in IDLE or ACCUM; a tick
leaves it. -/
def Obligations.PhaseAdvancesAlongItsChain : Prop :=
  ∀ (s t : State) (p : PortIn) (rest : List PortIn), s.inputs = p :: rest → p.rst = false → step s = .next t →
    (p.tick = true → t.phase = s.phase) ∧
    (p.tick = false → p.inValid = true →
      (s.phase = .idle → t.phase = .idle ∨ t.phase = .accum) ∧ (s.phase = .accum → t.phase = .accum ∨ t.phase = .ckLo) ∧
      (s.phase = .ckLo → t.phase = .ckHi) ∧ (s.phase = .ckHi → t.phase = .idle))

/-- R117, R27: the channels change only by reset or by a commit, which is the last byte of a framed, matching,
command-0x40 frame with a length byte of at least 16, and writes all six at once. -/
def Obligations.OnlyACommitWritesTheChannels : Prop :=
  ∀ s t : State, step s = .next t → t.channels ≠ s.channels →
    ∃ p rest, s.inputs = p :: rest ∧
      ((p.rst = true ∧ t.channels = Channels.zero) ∨
        (p.rst = false ∧ p.tick = false ∧ p.inValid = true ∧ s.phase = .ckHi ∧
          s.cklo.toNat + 256 * p.inByte.toNat = s.csum.toNat ∧ Memory.read s.buf 0 = 0x40 ∧ 13 ≤ s.len.toNat ∧
          t.phase = .idle ∧ t.channels = decode6 s.buf))

/-- R20, R100, R140: a BYTE event never writes the motors; a TICK never writes a channel or a decoder register. -/
def Obligations.DecoderAndMixerWriteOnlyTheirOwn : Prop :=
  ∀ (s t : State) (p : PortIn) (rest : List PortIn), s.inputs = p :: rest → p.rst = false → step s = .next t →
    (p.tick = false → MotorsKept s t) ∧ (p.tick = true → DecoderKept s t ∧ t.channels = s.channels)

/-- R55: only ACCUM_BYTE writes the buffer, one entry, at `ptr`; a reset, whatever the buffer held, leaves every entry 0. -/
def Obligations.OnlyAccumByteWritesTheBuffer : Prop :=
  (∀ (s t : State) (a : Nat), Memory.wf s.buf = true → step s = .next t →
    Memory.read t.buf a ≠ Memory.read s.buf a →
    ∃ p rest, s.inputs = p :: rest ∧
      ((p.rst = true ∧ Memory.read t.buf a = 0) ∨
        (p.rst = false ∧ p.tick = false ∧ p.inValid = true ∧ s.phase = .accum ∧ a = s.ptr.toNat ∧
          Memory.read t.buf a = p.inByte))) ∧
  ∀ (s t : State) (p : PortIn) (rest : List PortIn), s.inputs = p :: rest → p.rst = true → step s = .next t →
    ∀ a, Memory.read t.buf a = 0

/-- R58, R206: every event leaves the six channel outputs all as before, or all zero by a reset, or, when it is the last
byte of a matching command-0x40 frame with `len >= 13`, all six at that frame's fields in the buffer (the spec's decision
D8). The outputs are read between steps (the model's choice, log 10). -/
def Obligations.ChannelOutputsAreNeverTorn : Prop :=
  ∀ s t : State, step s = .next t →
    let o := portOut t
    let six : Channels := { ch0 := o.ch0, ch1 := o.ch1, ch2 := o.ch2, ch3 := o.ch3, ch4 := o.ch4, ch5 := o.ch5 }
    (six = s.channels ∨
      ∃ p rest, s.inputs = p :: rest ∧
        ((p.rst = true ∧ six = Channels.zero) ∨
          (p.rst = false ∧ p.tick = false ∧ p.inValid = true ∧ s.phase = .ckHi ∧
            s.cklo.toNat + 256 * p.inByte.toNat = s.csum.toNat ∧ Memory.read s.buf 0 = 0x40 ∧ 13 ≤ s.len.toNat ∧
            six = decode6 s.buf))) ∧
    o.aSpeed = t.motorA.speed ∧ o.bSpeed = t.motorB.speed ∧
    (o.aDir = 0 ↔ t.motorA.dir = .forward) ∧ (o.bDir = 0 ↔ t.motorB.dir = .forward)

/-- R33: the reset value of the buffer, the bytes earlier frames left there, and the frame registers in IDLE are never
observable: two states alike but for those stay alike after every event, and their outputs agree. -/
def Obligations.StaleFrameStateIsNeverObservable : Prop :=
  ∀ s s' : State, Inv s → Inv s' → SameObservable s s' → portOut s = portOut s' ∧
    ∀ t, step s = .next t → ∃ t', step s' = .next t' ∧ SameObservable t t'

/-- R63, R187: with no byte and no reset the channels hold for any number of steps; the motors hold until the first
tick, and every tick from then on writes the same values again. -/
def Obligations.SilentLinkHoldsChannelsAndMotors : Prop :=
  ∀ (n : Nat) (s u : State), (∀ p ∈ s.inputs, p.rst = false ∧ p.inValid = false) → exec .mixTick s = .next u →
    ∃ t, run n s = .next t ∧ t.channels = s.channels ∧ DecoderKept s t ∧
      ((∀ p ∈ s.inputs.take n, p.tick = false) → MotorsKept s t) ∧
      ((∃ p ∈ s.inputs.take n, p.tick = true) → MotorsKept u t)
end

