-- ==== Sys2Proof/Laws/Config.lean ====
section
/-! SUPPORT. The named constants of 00_scope.md R6 as numerals, the one spelling the lemmas use. -/

namespace Sys2Proof

@[simp] theorem protocolOverhead_eq : protocolOverhead = 3 := rfl
@[simp] theorem protocolMaxLength_eq : protocolMaxLength = 32 := rfl
@[simp] theorem bufCap_eq : bufCap = 32 := rfl
@[simp] theorem minCommitLen_eq : minCommitLen = 13 := rfl
@[simp] theorem cmdSetChannelsCode_eq : cmdSetChannelsCode = 0x40#8 := rfl
@[simp] theorem csumInitBase_eq : csumInitBase = 0xFFFF#16 := rfl
@[simp] theorem center_eq : center = 1500 := rfl
@[simp] theorem halfRange_eq : halfRange = 500 := rfl
@[simp] theorem dead_eq : dead = 10 := rfl
@[simp] theorem inMin_eq : inMin = 1000 := rfl
@[simp] theorem inMax_eq : inMax = 2000 := rfl

end Sys2Proof
end

