-- ==== Sys2Proof/Laws/Bits.lean ====
section
/-! SUPPORT. What the bit-field and byte-order helpers of the decoder compute, as numbers. -/

namespace Sys2Proof

theorem pair16_toNat (lo hi : Byte) : (pair16 lo hi).toNat = lo.toNat + 256 * hi.toNat := by
  have hl := lo.isLt
  have hh := hi.isLt
  have e1 : hi.toNat % 65536 * 256 % 65536 = 2 ^ 8 * hi.toNat := by omega
  have e2 : lo.toNat % 65536 = lo.toNat := by omega
  simp only [pair16, BitVec.toNat_or, BitVec.toNat_shiftLeft, BitVec.toNat_setWidth, Nat.shiftLeft_eq, Nat.reducePow,
    e1, e2]
  rw [← Nat.two_pow_add_eq_or_of_lt hl]
  omega

@[simp] theorem lowByte_toNat (v : Half) : (lowByte v).toNat = v.toNat % 256 := by
  simp [lowByte, BitVec.extractLsb'_toNat]

@[simp] theorem highByte_toNat (v : Half) : (highByte v).toNat = v.toNat / 256 := by
  have h := v.isLt
  simp only [highByte, BitVec.extractLsb'_toNat, Nat.shiftRight_eq_div_pow]
  omega

/-- The two bytes of a 16-bit value, low byte first, make it again. -/
@[simp] theorem pair16_lowByte_highByte (v : Half) : pair16 (lowByte v) (highByte v) = v := by
  apply BitVec.eq_of_toNat_eq
  rw [pair16_toNat]
  simp
  omega

/-- Two pairs of bytes that make one value are the same pair. -/
theorem pair16_inj {lo hi lo' hi' : Byte} (h : pair16 lo hi = pair16 lo' hi') : lo = lo' ∧ hi = hi' := by
  have h' := congrArg BitVec.toNat h
  simp only [pair16_toNat] at h'
  have := lo.isLt
  have := lo'.isLt
  exact ⟨BitVec.eq_of_toNat_eq (by omega), BitVec.eq_of_toNat_eq (by omega)⟩

theorem decodeWordOf_toNat (p : Phase) (b : Byte) :
    (decodeWordOf p b).toNat = (phaseCode p).toNat * 256 + b.toNat := by
  rw [decodeWordOf, BitVec.toNat_append, Nat.shiftLeft_eq, Nat.mul_comm, ← Nat.two_pow_add_eq_or_of_lt b.isLt]

@[simp] theorem phaseOf_phaseCode (p : Phase) : phaseOf (phaseCode p) = p := by cases p <;> rfl

@[simp] theorem dwPhase_append (c : BitVec 2) (b : Byte) : dwPhase (c ++ b) = phaseOf c := by
  unfold dwPhase
  congr 1
  apply BitVec.eq_of_toNat_eq
  rw [BitVec.extractLsb'_toNat, BitVec.toNat_append, Nat.shiftLeft_eq, Nat.mul_comm,
    ← Nat.two_pow_add_eq_or_of_lt b.isLt, Nat.shiftRight_eq_div_pow]
  have := b.isLt
  have := c.isLt
  omega

@[simp] theorem dwByte_append (c : BitVec 2) (b : Byte) : dwByte (c ++ b) = b := by
  unfold dwByte
  apply BitVec.eq_of_toNat_eq
  rw [BitVec.extractLsb'_toNat, BitVec.toNat_append, Nat.shiftLeft_eq, Nat.mul_comm,
    ← Nat.two_pow_add_eq_or_of_lt b.isLt, Nat.shiftRight_eq_div_pow]
  have := b.isLt
  omega

@[simp] theorem dwPhase_decodeWordOf (p : Phase) (b : Byte) : dwPhase (decodeWordOf p b) = p := by
  simp [decodeWordOf]

@[simp] theorem dwByte_decodeWordOf (p : Phase) (b : Byte) : dwByte (decodeWordOf p b) = b := by
  simp [decodeWordOf]

/-- R109 in numbers. -/
theorem csumMatch_iff (ctx : DecodeCtx) (b : Byte) :
    csumMatch ctx b = true ↔ ctx.cklo.toNat + 256 * b.toNat = ctx.csum.toNat := by
  rw [csumMatch, beq_iff_eq, ← pair16_toNat, BitVec.toNat_inj]

/-- R80 in numbers. -/
theorem frameShort_iff (ctx : DecodeCtx) : frameShort ctx = true ↔ ctx.len.toNat < 13 := decide_eq_true_iff

/-- R74 in numbers. -/
theorem lenAccepted_iff (b : Byte) : lenAccepted b = true ↔ 3 < b.toNat ∧ b.toNat ≤ 32 := by
  simp [lenAccepted]

/-- The decoder's test on a length byte is the well-formedness of its row. -/
theorem lenAccepted_eq_isLenByte (b : Byte) : lenAccepted b = isLenByte b := by
  simp [lenAccepted, isLenByte]

@[simp] theorem portVector_rst (r t v : Bool) : (portVector r t v).getLsbD 2 = r := by
  revert r t v; decide

@[simp] theorem portVector_tick (r t v : Bool) : (portVector r t v).getLsbD 1 = t := by
  revert r t v; decide

@[simp] theorem portVector_inValid (r t v : Bool) : (portVector r t v).getLsbD 0 = v := by
  revert r t v; decide

end Sys2Proof
end

