-- ==== Sys2Proof/Laws/Datapath.lean ====
section
/-! SUPPORT. What the mixer's arithmetic computes, without divisions of divisions: the forms proofs use. -/

namespace Sys2Proof.Machine

/-- R10: `roundDiv` is the floor of the quotient plus one half: the one integer whose distance below it is less than
one. -/
theorem roundDiv_spec (num den : Int) (h : 0 < den) :
    roundDiv num den * (2 * den) ≤ 2 * num + den ∧ 2 * num + den < (roundDiv num den + 1) * (2 * den) := by
  have hd : 0 < 2 * den := by omega
  unfold roundDiv
  exact ⟨Int.ediv_mul_le _ (by omega), Int.lt_ediv_add_one_mul_self _ hd⟩

/-- R145: the percentage is `round(turn_amount / 5)`. -/
theorem turnPct_eq (t : Int) : turnPct t = (2 * t + 5) / 10 := by
  unfold turnPct roundDiv halfRange
  omega

/-- R146: the reduction is exact. -/
@[simp] theorem reduction_eq (p : Int) : reduction p = 10 * p := by
  unfold reduction roundDiv
  omega

/-- R147: when normalize has a value. -/
theorem normOk_iff (v oldMin oldMax newMin newMax : Int) :
    normOk v oldMin oldMax newMin newMax = true ↔
      oldMin ≤ v ∧ v ≤ oldMax ∧ newMin < newMax ∧ oldMin < oldMax := by
  simp only [normOk, Bool.not_eq_true', Bool.or_eq_false_iff, decide_eq_false_iff_not, not_or, beq_eq_false_iff_ne]
  omega

/-- R147: what N computes, for every argument. -/
theorem normalize_N_speed (duty v : Int) :
    (mixerNormalize v inMin inMax 0 duty).speed =
      if 1000 ≤ v ∧ v ≤ 2000 ∧ 0 < duty then ((v - 1000) * duty + 500) / 1000 else 0 := by
  have hok := normOk_iff v inMin inMax 0 duty
  simp only [inMin, inMax] at hok
  by_cases h : normOk v 1000 2000 0 duty = true
  · have hr : 1000 ≤ v ∧ v ≤ 2000 ∧ 0 < duty := by have := hok.1 h; omega
    simp only [mixerNormalize, NormResult.speed, inMin, inMax, h, hr, if_true, and_self, roundDiv, Int.sub_zero,
      Int.zero_mul, Int.add_zero]
    generalize (v - 1000) * duty = x
    omega
  · have hr : ¬ (1000 ≤ v ∧ v ≤ 2000 ∧ 0 < duty) := by have := mt hok.2 h; omega
    rw [if_neg hr]
    simp [mixerNormalize, NormResult.speed, h]

/-- R151, R157: N lies in the configured range, so it fits 16 bits. -/
theorem normalize_N_bounds (dutyMax : Half) (v : Int) :
    0 ≤ (mixerNormalize v inMin inMax 0 dutyMax.toNat).speed ∧
      (mixerNormalize v inMin inMax 0 dutyMax.toNat).speed ≤ dutyMax.toNat := by
  rw [normalize_N_speed]
  split
  · rename_i h
    have h1 : 0 ≤ (v - 1000) * (dutyMax.toNat : Int) := Int.mul_nonneg (by omega) (by omega)
    have h2 : (v - 1000) * (dutyMax.toNat : Int) ≤ 1000 * dutyMax.toNat :=
      Int.mul_le_mul_of_nonneg_right (by omega) (by omega)
    omega
  · omega

/-- R157: the 16-bit speed is the exact value. -/
theorem motorSpeed_toNat (dutyMax : Half) (v : Int) :
    ((motorSpeed dutyMax v).toNat : Int) =
      if 1000 ≤ v ∧ v ≤ 2000 ∧ 0 < dutyMax.toNat then ((v - 1000) * dutyMax.toNat + 500) / 1000 else 0 := by
  have hb := normalize_N_bounds dutyMax v
  have hd := dutyMax.isLt
  have he := normalize_N_speed dutyMax.toNat v
  have hmod : ((motorSpeed dutyMax v).toNat : Int) = (mixerNormalize v inMin inMax 0 dutyMax.toNat).speed := by
    unfold motorSpeed
    rw [BitVec.toNat_ofInt, Int.toNat_of_nonneg (by omega)]
    omega
  rw [hmod, he]
  simp only [Int.natCast_pos]

/-- R147: the speed in the closed form of the claims. -/
theorem motorSpeed_eq_speedOf (dutyMax : Half) (v : Int) : ((motorSpeed dutyMax v).toNat : Int) = speedOf dutyMax v :=
  motorSpeed_toNat dutyMax v

/-- R145, R146: the reduction in the closed form of the claims. -/
theorem reduction_turnPct (a : Int) : reduction (turnPct a) = reductionOf a := by
  rw [reduction_eq, turnPct_eq]
  rfl

/-- R151: the speed never exceeds DUTY_MAX. -/
theorem motorSpeed_le (dutyMax : Half) (v : Int) : (motorSpeed dutyMax v).toNat ≤ dutyMax.toNat := by
  have hb := normalize_N_bounds dutyMax v
  have he := normalize_N_speed dutyMax.toNat v
  have h := motorSpeed_toNat dutyMax v
  simp only [Int.natCast_pos] at he
  omega

@[simp] theorem straightSpeeds_a (d : Half) (y : Int) : (straightSpeeds d y).a = motorSpeed d y := rfl
@[simp] theorem straightSpeeds_b (d : Half) (y : Int) : (straightSpeeds d y).b = motorSpeed d y := rfl
@[simp] theorem rightSpeeds_a (d : Half) (x y : Int) : (rightSpeeds d x y).a = motorSpeed d y := rfl
@[simp] theorem rightSpeeds_b (d : Half) (x y : Int) :
    (rightSpeeds d x y).b = motorSpeed d (y - reduction (turnPct (turnAmountRight x))) := rfl
@[simp] theorem leftSpeeds_a (d : Half) (x y : Int) :
    (leftSpeeds d x y).a = motorSpeed d (y - reduction (turnPct (turnAmountLeft x))) := rfl
@[simp] theorem leftSpeeds_b (d : Half) (x y : Int) : (leftSpeeds d x y).b = motorSpeed d y := rfl
@[simp] theorem bandSpeeds_straight (d : Half) (x y : Int) : bandSpeeds .straight d x y = straightSpeeds d y := rfl
@[simp] theorem bandSpeeds_right (d : Half) (x y : Int) : bandSpeeds .right d x y = rightSpeeds d x y := rfl
@[simp] theorem bandSpeeds_left (d : Half) (x y : Int) : bandSpeeds .left d x y = leftSpeeds d x y := rfl

/-- R143: the right band in numbers. -/
theorem steerBand_right_iff (v : Half) : steerBand v = .right ↔ 1510 ≤ v.toNat := by
  unfold steerBand center dead
  split_ifs <;> simp <;> omega

/-- R143: the left band in numbers. -/
theorem steerBand_left_iff (v : Half) : steerBand v = .left ↔ v.toNat ≤ 1490 := by
  unfold steerBand center dead
  split_ifs <;> simp <;> omega

/-- R143: the dead-band in numbers. -/
theorem steerBand_straight_iff (v : Half) : steerBand v = .straight ↔ 1490 < v.toNat ∧ v.toNat < 1510 := by
  unfold steerBand center dead
  split_ifs <;> simp <;> omega

end Sys2Proof.Machine
end

