-- ==== Sys2Proof/Laws/State.lean ====
section
/-! SUPPORT. One lemma per field of State per update: what each named operation leaves in each register. -/

namespace Sys2Proof.Machine

/-! `acceptLength` (R101) -/

@[simp] theorem acceptLength_phase (b : Byte) (s : State) : (acceptLength b s).phase = .accum := rfl
@[simp] theorem acceptLength_len (b : Byte) (s : State) : (acceptLength b s).len = (b - 3).setWidth 5 := rfl
@[simp] theorem acceptLength_ptr (b : Byte) (s : State) : (acceptLength b s).ptr = 0 := rfl
@[simp] theorem acceptLength_csum (b : Byte) (s : State) : (acceptLength b s).csum = csumInitBase - b.setWidth 16 := rfl
@[simp] theorem acceptLength_cklo (b : Byte) (s : State) : (acceptLength b s).cklo = s.cklo := rfl
@[simp] theorem acceptLength_buf (b : Byte) (s : State) : (acceptLength b s).buf = s.buf := rfl
@[simp] theorem acceptLength_channels (b : Byte) (s : State) : (acceptLength b s).channels = s.channels := rfl
@[simp] theorem acceptLength_motorA (b : Byte) (s : State) : (acceptLength b s).motorA = s.motorA := rfl
@[simp] theorem acceptLength_motorB (b : Byte) (s : State) : (acceptLength b s).motorB = s.motorB := rfl
@[simp] theorem acceptLength_cfg (b : Byte) (s : State) : (acceptLength b s).cfg = s.cfg := rfl
@[simp] theorem acceptLength_inputs (b : Byte) (s : State) : (acceptLength b s).inputs = s.inputs := rfl

/-! `storePayload` (R103) -/

@[simp] theorem storePayload_phase (b : Byte) (s : State) : (storePayload b s).phase = if lastPayloadByte s then .ckLo else s.phase := rfl
@[simp] theorem storePayload_len (b : Byte) (s : State) : (storePayload b s).len = s.len := rfl
@[simp] theorem storePayload_ptr (b : Byte) (s : State) : (storePayload b s).ptr = s.ptr + 1 := rfl
@[simp] theorem storePayload_csum (b : Byte) (s : State) : (storePayload b s).csum = s.csum - b.setWidth 16 := rfl
@[simp] theorem storePayload_cklo (b : Byte) (s : State) : (storePayload b s).cklo = s.cklo := rfl
@[simp] theorem storePayload_buf (b : Byte) (s : State) : (storePayload b s).buf = bufWrite s.buf s.ptr b := rfl
@[simp] theorem storePayload_channels (b : Byte) (s : State) : (storePayload b s).channels = s.channels := rfl
@[simp] theorem storePayload_motorA (b : Byte) (s : State) : (storePayload b s).motorA = s.motorA := rfl
@[simp] theorem storePayload_motorB (b : Byte) (s : State) : (storePayload b s).motorB = s.motorB := rfl
@[simp] theorem storePayload_cfg (b : Byte) (s : State) : (storePayload b s).cfg = s.cfg := rfl
@[simp] theorem storePayload_inputs (b : Byte) (s : State) : (storePayload b s).inputs = s.inputs := rfl

/-! `holdLowByte` (R104) -/

@[simp] theorem holdLowByte_phase (b : Byte) (s : State) : (holdLowByte b s).phase = .ckHi := rfl
@[simp] theorem holdLowByte_len (b : Byte) (s : State) : (holdLowByte b s).len = s.len := rfl
@[simp] theorem holdLowByte_ptr (b : Byte) (s : State) : (holdLowByte b s).ptr = s.ptr := rfl
@[simp] theorem holdLowByte_csum (b : Byte) (s : State) : (holdLowByte b s).csum = s.csum := rfl
@[simp] theorem holdLowByte_cklo (b : Byte) (s : State) : (holdLowByte b s).cklo = b := rfl
@[simp] theorem holdLowByte_buf (b : Byte) (s : State) : (holdLowByte b s).buf = s.buf := rfl
@[simp] theorem holdLowByte_channels (b : Byte) (s : State) : (holdLowByte b s).channels = s.channels := rfl
@[simp] theorem holdLowByte_motorA (b : Byte) (s : State) : (holdLowByte b s).motorA = s.motorA := rfl
@[simp] theorem holdLowByte_motorB (b : Byte) (s : State) : (holdLowByte b s).motorB = s.motorB := rfl
@[simp] theorem holdLowByte_cfg (b : Byte) (s : State) : (holdLowByte b s).cfg = s.cfg := rfl
@[simp] theorem holdLowByte_inputs (b : Byte) (s : State) : (holdLowByte b s).inputs = s.inputs := rfl

/-! `returnToIdle` (R191) -/

@[simp] theorem returnToIdle_phase (s : State) : (returnToIdle s).phase = .idle := rfl
@[simp] theorem returnToIdle_len (s : State) : (returnToIdle s).len = s.len := rfl
@[simp] theorem returnToIdle_ptr (s : State) : (returnToIdle s).ptr = s.ptr := rfl
@[simp] theorem returnToIdle_csum (s : State) : (returnToIdle s).csum = s.csum := rfl
@[simp] theorem returnToIdle_cklo (s : State) : (returnToIdle s).cklo = s.cklo := rfl
@[simp] theorem returnToIdle_buf (s : State) : (returnToIdle s).buf = s.buf := rfl
@[simp] theorem returnToIdle_channels (s : State) : (returnToIdle s).channels = s.channels := rfl
@[simp] theorem returnToIdle_motorA (s : State) : (returnToIdle s).motorA = s.motorA := rfl
@[simp] theorem returnToIdle_motorB (s : State) : (returnToIdle s).motorB = s.motorB := rfl
@[simp] theorem returnToIdle_cfg (s : State) : (returnToIdle s).cfg = s.cfg := rfl
@[simp] theorem returnToIdle_inputs (s : State) : (returnToIdle s).inputs = s.inputs := rfl

/-! `publish` (R58) -/

@[simp] theorem publish_phase (c : Channels) (s : State) : (publish c s).phase = s.phase := rfl
@[simp] theorem publish_len (c : Channels) (s : State) : (publish c s).len = s.len := rfl
@[simp] theorem publish_ptr (c : Channels) (s : State) : (publish c s).ptr = s.ptr := rfl
@[simp] theorem publish_csum (c : Channels) (s : State) : (publish c s).csum = s.csum := rfl
@[simp] theorem publish_cklo (c : Channels) (s : State) : (publish c s).cklo = s.cklo := rfl
@[simp] theorem publish_buf (c : Channels) (s : State) : (publish c s).buf = s.buf := rfl
@[simp] theorem publish_channels (c : Channels) (s : State) : (publish c s).channels = c := rfl
@[simp] theorem publish_motorA (c : Channels) (s : State) : (publish c s).motorA = s.motorA := rfl
@[simp] theorem publish_motorB (c : Channels) (s : State) : (publish c s).motorB = s.motorB := rfl
@[simp] theorem publish_cfg (c : Channels) (s : State) : (publish c s).cfg = s.cfg := rfl
@[simp] theorem publish_inputs (c : Channels) (s : State) : (publish c s).inputs = s.inputs := rfl

/-! `writeMotors` (R153) -/

@[simp] theorem writeMotors_phase (a b : Motor) (s : State) : (writeMotors a b s).phase = s.phase := rfl
@[simp] theorem writeMotors_len (a b : Motor) (s : State) : (writeMotors a b s).len = s.len := rfl
@[simp] theorem writeMotors_ptr (a b : Motor) (s : State) : (writeMotors a b s).ptr = s.ptr := rfl
@[simp] theorem writeMotors_csum (a b : Motor) (s : State) : (writeMotors a b s).csum = s.csum := rfl
@[simp] theorem writeMotors_cklo (a b : Motor) (s : State) : (writeMotors a b s).cklo = s.cklo := rfl
@[simp] theorem writeMotors_buf (a b : Motor) (s : State) : (writeMotors a b s).buf = s.buf := rfl
@[simp] theorem writeMotors_channels (a b : Motor) (s : State) : (writeMotors a b s).channels = s.channels := rfl
@[simp] theorem writeMotors_motorA (a b : Motor) (s : State) : (writeMotors a b s).motorA = a := rfl
@[simp] theorem writeMotors_motorB (a b : Motor) (s : State) : (writeMotors a b s).motorB = b := rfl
@[simp] theorem writeMotors_cfg (a b : Motor) (s : State) : (writeMotors a b s).cfg = s.cfg := rfl
@[simp] theorem writeMotors_inputs (a b : Motor) (s : State) : (writeMotors a b s).inputs = s.inputs := rfl

/-! `driveForward` (R140) -/

@[simp] theorem driveForward_phase (v : Speeds) (s : State) : (driveForward v s).phase = s.phase := rfl
@[simp] theorem driveForward_len (v : Speeds) (s : State) : (driveForward v s).len = s.len := rfl
@[simp] theorem driveForward_ptr (v : Speeds) (s : State) : (driveForward v s).ptr = s.ptr := rfl
@[simp] theorem driveForward_csum (v : Speeds) (s : State) : (driveForward v s).csum = s.csum := rfl
@[simp] theorem driveForward_cklo (v : Speeds) (s : State) : (driveForward v s).cklo = s.cklo := rfl
@[simp] theorem driveForward_buf (v : Speeds) (s : State) : (driveForward v s).buf = s.buf := rfl
@[simp] theorem driveForward_channels (v : Speeds) (s : State) : (driveForward v s).channels = s.channels := rfl
@[simp] theorem driveForward_motorA (v : Speeds) (s : State) : (driveForward v s).motorA = ⟨v.a, .forward⟩ := rfl
@[simp] theorem driveForward_motorB (v : Speeds) (s : State) : (driveForward v s).motorB = ⟨v.b, .forward⟩ := rfl
@[simp] theorem driveForward_cfg (v : Speeds) (s : State) : (driveForward v s).cfg = s.cfg := rfl
@[simp] theorem driveForward_inputs (v : Speeds) (s : State) : (driveForward v s).inputs = s.inputs := rfl

/-! `resetRegisters` (R200) -/

@[simp] theorem resetRegisters_phase (s : State) : (resetRegisters s).phase = .idle := rfl
@[simp] theorem resetRegisters_len (s : State) : (resetRegisters s).len = 0 := rfl
@[simp] theorem resetRegisters_ptr (s : State) : (resetRegisters s).ptr = 0 := rfl
@[simp] theorem resetRegisters_csum (s : State) : (resetRegisters s).csum = 0 := rfl
@[simp] theorem resetRegisters_cklo (s : State) : (resetRegisters s).cklo = 0 := rfl
@[simp] theorem resetRegisters_buf (s : State) : (resetRegisters s).buf = [] := rfl
@[simp] theorem resetRegisters_channels (s : State) : (resetRegisters s).channels = Channels.zero := rfl
@[simp] theorem resetRegisters_motorA (s : State) : (resetRegisters s).motorA = Motor.stopped := rfl
@[simp] theorem resetRegisters_motorB (s : State) : (resetRegisters s).motorB = Motor.stopped := rfl
@[simp] theorem resetRegisters_cfg (s : State) : (resetRegisters s).cfg = s.cfg := rfl
@[simp] theorem resetRegisters_inputs (s : State) : (resetRegisters s).inputs = s.inputs := rfl

/-! `withInputs` (log 1) -/

@[simp] theorem withInputs_phase (ps : List PortIn) (s : State) : (withInputs ps s).phase = s.phase := rfl
@[simp] theorem withInputs_len (ps : List PortIn) (s : State) : (withInputs ps s).len = s.len := rfl
@[simp] theorem withInputs_ptr (ps : List PortIn) (s : State) : (withInputs ps s).ptr = s.ptr := rfl
@[simp] theorem withInputs_csum (ps : List PortIn) (s : State) : (withInputs ps s).csum = s.csum := rfl
@[simp] theorem withInputs_cklo (ps : List PortIn) (s : State) : (withInputs ps s).cklo = s.cklo := rfl
@[simp] theorem withInputs_buf (ps : List PortIn) (s : State) : (withInputs ps s).buf = s.buf := rfl
@[simp] theorem withInputs_channels (ps : List PortIn) (s : State) : (withInputs ps s).channels = s.channels := rfl
@[simp] theorem withInputs_motorA (ps : List PortIn) (s : State) : (withInputs ps s).motorA = s.motorA := rfl
@[simp] theorem withInputs_motorB (ps : List PortIn) (s : State) : (withInputs ps s).motorB = s.motorB := rfl
@[simp] theorem withInputs_cfg (ps : List PortIn) (s : State) : (withInputs ps s).cfg = s.cfg := rfl
@[simp] theorem withInputs_inputs (ps : List PortIn) (s : State) : (withInputs ps s).inputs = ps := rfl

end Sys2Proof.Machine
end

