-- ==== Sys2Proof/Laws/Exec.lean ====
section
/-! SUPPORT. What each meaning answers: one lemma per row, so that no later proof unfolds a meaning. -/

namespace Sys2Proof.Machine

@[simp] theorem exec_idleLenAccept (b : Byte) (s : State) : exec (.idleLenAccept b) s = .next (acceptLength b s) := rfl
@[simp] theorem exec_idleDrop (b : Byte) (s : State) : exec (.idleDrop b) s = .next s := rfl
@[simp] theorem exec_accumByte (b : Byte) (s : State) : exec (.accumByte b) s = .next (storePayload b s) := rfl
@[simp] theorem exec_ckloByte (b : Byte) (s : State) : exec (.ckloByte b) s = .next (holdLowByte b s) := rfl
@[simp] theorem exec_ckhiCommit (b : Byte) (s : State) :
    exec (.ckhiCommit b) s = .next (returnToIdle (publish (decode6 s.buf) s)) := rfl
@[simp] theorem exec_ckhiDiscardCmd (b : Byte) (s : State) : exec (.ckhiDiscardCmd b) s = .next (returnToIdle s) := rfl
@[simp] theorem exec_ckhiReject (b : Byte) (s : State) : exec (.ckhiReject b) s = .next (returnToIdle s) := rfl
@[simp] theorem exec_ckhiDiscardShort (b : Byte) (s : State) :
    exec (.ckhiDiscardShort b) s = .next (returnToIdle s) := rfl
@[simp] theorem exec_cmdUnrecognised (c : Byte) (s : State) : exec (.cmdUnrecognised c) s = .next (returnToIdle s) := rfl
@[simp] theorem exec_reset (s : State) : exec .reset s = .next (resetRegisters s) := rfl

/-- R111: what a recognised command does, by the frame's length. -/
theorem exec_cmdSetChannels (s : State) :
    exec .cmdSetChannels s =
      .next (if s.len.toNat < 13 then returnToIdle s else returnToIdle (publish (decode6 s.buf) s)) := by
  have hf : frameShort (decodeCtx s) = decide (s.len.toNat < 13) := rfl
  show (if frameShort (decodeCtx s) = true then _ else _) = _
  rw [hf]
  by_cases h : s.len.toNat < 13 <;> simp [h]

@[simp] theorem ifAdmitted_of_admitted {s : State} (h : s.cfg.admitted = true)
    (k : Host.Outcome State Fault Refusal) : ifAdmitted s k = k := by simp [ifAdmitted, h]

/-- What `ifAdmitted` can answer. -/
theorem ifAdmitted_next {s t : State} {k : Host.Outcome State Fault Refusal} (h : ifAdmitted s k = .next t) :
    s.cfg.admitted = true ∧ k = .next t := by
  unfold ifAdmitted at h
  split at h
  · exact ⟨by assumption, h⟩
  · cases h

/-- The speeds a tick drives: those of the steering band. -/
theorem exec_mixTick {s : State} (h : s.cfg.admitted = true) :
    exec .mixTick s = .next (driveForward
      (bandSpeeds (steerBand s.channels.ch0) s.cfg.dutyMax s.channels.ch0.toNat s.channels.ch2.toNat) s) := by
  simp [exec, execMixTick, h, throttleOf, steerOf, Channels.get]

theorem exec_mixStraight {s : State} (h : s.cfg.admitted = true) :
    exec .mixStraight s = .next (driveForward (straightSpeeds s.cfg.dutyMax s.channels.ch2.toNat) s) := by
  simp [exec, execMixStraight, h, throttleOf, Channels.get]

theorem exec_mixRight {s : State} (h : s.cfg.admitted = true) :
    exec .mixRight s =
      .next (driveForward (rightSpeeds s.cfg.dutyMax s.channels.ch0.toNat s.channels.ch2.toNat) s) := by
  simp [exec, execMixRight, h, throttleOf, steerOf, Channels.get]

theorem exec_mixLeft {s : State} (h : s.cfg.admitted = true) :
    exec .mixLeft s =
      .next (driveForward (leftSpeeds s.cfg.dutyMax s.channels.ch0.toNat s.channels.ch2.toNat) s) := by
  simp [exec, execMixLeft, h, throttleOf, steerOf, Channels.get]

/-- R151: whatever the band, both speeds of a tick are within DUTY_MAX. -/
theorem bandSpeeds_le (band : Band) (duty : Half) (steer throttle : Int) :
    (bandSpeeds band duty steer throttle).a.toNat ≤ duty.toNat ∧
      (bandSpeeds band duty steer throttle).b.toNat ≤ duty.toNat := by
  cases band <;> exact ⟨motorSpeed_le _ _, motorSpeed_le _ _⟩

/-- Everything a TICK can do: it drives both motors forward at speeds within DUTY_MAX, and nothing else. -/
theorem exec_mixTick_cases {s t : State} (h : exec .mixTick s = .next t) :
    s.cfg.admitted = true ∧ ∃ v : Speeds, v.a.toNat ≤ s.cfg.dutyMax.toNat ∧ v.b.toNat ≤ s.cfg.dutyMax.toNat ∧
      t = driveForward v s := by
  have ha : s.cfg.admitted = true := (ifAdmitted_next h).1
  rw [exec_mixTick ha] at h
  injection h with h
  have hb := bandSpeeds_le (steerBand s.channels.ch0) s.cfg.dutyMax s.channels.ch0.toNat s.channels.ch2.toNat
  exact ⟨ha, _, hb.1, hb.2, h.symm⟩

end Sys2Proof.Machine
end

