-- ==== Sys2Proof/Laws/Memory.lean ====
section
/-! SUPPORT. The laws of the payload buffer: a read after a write, and the canonical form every write keeps. -/

namespace Sys2Proof.Machine

@[simp] theorem Memory.read_nil (a : Nat) : Memory.read [] a = Memory.unlisted := rfl

/-- A well-formed list from `lo` lists nothing below `lo`. -/
theorem Memory.read_below : ∀ (m : Memory) (lo a : Nat), Memory.wfFrom lo m = true → a < lo →
    Memory.read m a = Memory.unlisted
  | [], _, _, _, _ => rfl
  | (k, v) :: rest, lo, a, h, ha => by
    simp only [Memory.wfFrom, Bool.and_eq_true, decide_eq_true_eq] at h
    have hk : a ≠ k := by omega
    simp [Memory.read, hk, Memory.read_below rest (k + 1) a h.2 (by omega)]

/-- A well-formed list stays well-formed from any lower bound. -/
theorem Memory.wfFrom_mono {m : Memory} {lo lo' : Nat} (h : Memory.wfFrom lo m = true) (hle : lo' ≤ lo) :
    Memory.wfFrom lo' m = true := by
  cases m with
  | nil => rfl
  | cons c rest =>
    obtain ⟨k, v⟩ := c
    simp only [Memory.wfFrom, Bool.and_eq_true, decide_eq_true_eq] at h ⊢
    exact ⟨⟨⟨by omega, h.1.1.2⟩, h.1.2⟩, h.2⟩

/-- A read after a write: the written index gives the byte, every other index what it gave before. -/
theorem Memory.read_write : ∀ (m : Memory) (lo a : Nat) (b : Byte) (x : Nat), Memory.wfFrom lo m = true →
    Memory.read (Memory.write m a b) x = if x = a then b else Memory.read m x
  | [], _, a, b, x, _ => by
    by_cases hb : b = Memory.unlisted <;> by_cases hx : x = a <;> simp [Memory.write, Memory.read, hb, hx]
  | (k, v) :: rest, lo, a, b, x, h => by
    have h' := h
    simp only [Memory.wfFrom, Bool.and_eq_true, decide_eq_true_eq] at h
    rcases Nat.lt_trichotomy a k with hak | hak | hak
    · have hbelow : Memory.read ((k, v) :: rest) a = Memory.unlisted := by
        have : a ≠ k := by omega
        simp [Memory.read, this, Memory.read_below rest (k + 1) a h.2 (by omega)]
      by_cases hb : b = Memory.unlisted <;> by_cases hx : x = a <;>
        simp_all [Memory.write, Memory.read]
    · subst hak
      have hbelow := Memory.read_below rest (a + 1) a h.2 (by omega)
      by_cases hb : b = Memory.unlisted <;> by_cases hx : x = a <;>
        simp_all [Memory.write, Memory.read]
    · have h1 : ¬ a < k := by omega
      have h2 : a ≠ k := by omega
      simp only [Memory.write, h1, h2, if_false, Memory.read]
      rw [Memory.read_write rest (k + 1) a b x h.2]
      by_cases hxk : x = k
      · have : x ≠ a := by omega
        simp [hxk]
        intro hka
        omega
      · simp [hxk]

/-- A write inside the capacity keeps the canonical form. -/
theorem Memory.wfFrom_write : ∀ (m : Memory) (lo a : Nat) (b : Byte), Memory.wfFrom lo m = true → lo ≤ a → a < bufCap →
    Memory.wfFrom lo (Memory.write m a b) = true
  | [], lo, a, b, _, hlo, hcap => by
    by_cases hb : b = Memory.unlisted <;> simp [Memory.write, Memory.wfFrom, hb, hlo, hcap]
  | (k, v) :: rest, lo, a, b, h, hlo, hcap => by
    have h' := h
    simp only [Memory.wfFrom, Bool.and_eq_true, decide_eq_true_eq] at h
    obtain ⟨⟨⟨hk, hkcap⟩, hv⟩, hrest⟩ := h
    rcases Nat.lt_trichotomy a k with hak | hak | hak
    · by_cases hb : b = Memory.unlisted
      · simpa [Memory.write, hak, hb] using h'
      · have : a + 1 ≤ k := hak
        simp only [Memory.write, hak, hb, if_true, if_false, Memory.wfFrom, Bool.and_eq_true, decide_eq_true_eq,
          bne_iff_ne, ne_eq, not_false_eq_true, and_true]
        exact ⟨⟨hlo, hcap⟩, ⟨⟨this, hkcap⟩, by simpa using hv⟩, hrest⟩
    · subst hak
      by_cases hb : b = Memory.unlisted
      · simpa [Memory.write, hb] using Memory.wfFrom_mono hrest (by omega)
      · simp [Memory.write, hb, Memory.wfFrom, hlo, hcap, hrest]
    · have h1 : ¬ a < k := by omega
      have h2 : a ≠ k := by omega
      simp only [Memory.write, h1, h2, if_false, Memory.wfFrom, Bool.and_eq_true, decide_eq_true_eq]
      exact ⟨⟨⟨hk, hkcap⟩, hv⟩, Memory.wfFrom_write rest (k + 1) a b hrest (by omega) hcap⟩

/-- BufWrite: the entry written reads as the byte, every other entry as before. -/
theorem bufWrite_read {m : Memory} (h : Memory.wf m = true) (i : Idx) (b : Byte) (x : Nat) :
    Memory.read (bufWrite m i b) x = if x = i.toNat then b else Memory.read m x :=
  Memory.read_write m 0 i.toNat b x h

/-- BufWrite keeps the canonical form, at every index. -/
theorem bufWrite_wf {m : Memory} (h : Memory.wf m = true) (i : Idx) (b : Byte) : Memory.wf (bufWrite m i b) = true :=
  Memory.wfFrom_write m 0 i.toNat b h (Nat.zero_le _) i.isLt

/-- The buffer after reset has the canonical form. -/
theorem reset_buf_wf : Memory.wf State.reset.buf = true := rfl

/-- Two canonical lists that read alike are the same list. -/
theorem Memory.eq_of_read_eq : ∀ (m n : Memory) (lo : Nat), Memory.wfFrom lo m = true → Memory.wfFrom lo n = true →
    (∀ a, Memory.read m a = Memory.read n a) → m = n
  | [], [], _, _, _, _ => rfl
  | [], (k, v) :: rest, lo, _, hn, h => by
    have := h k
    simp only [Memory.wfFrom, Bool.and_eq_true, bne_iff_ne] at hn
    simp [Memory.read] at this
    exact absurd this.symm hn.1.2
  | (k, v) :: rest, [], lo, hm, _, h => by
    have := h k
    simp only [Memory.wfFrom, Bool.and_eq_true, bne_iff_ne] at hm
    simp [Memory.read] at this
    exact absurd this hm.1.2
  | (k, v) :: rest, (k', v') :: rest', lo, hm, hn, h => by
    simp only [Memory.wfFrom, Bool.and_eq_true, bne_iff_ne, decide_eq_true_eq] at hm hn
    have hkk : k = k' := by
      rcases Nat.lt_trichotomy k k' with hlt | heq | hgt
      · have := h k
        rw [Memory.read_below ((k', v') :: rest') k' k (by simp [Memory.wfFrom, hn]) hlt] at this
        simp [Memory.read] at this
        exact absurd this hm.1.2
      · exact heq
      · have := h k'
        rw [Memory.read_below ((k, v) :: rest) k k' (by simp [Memory.wfFrom, hm]) hgt] at this
        simp [Memory.read] at this
        exact absurd this.symm hn.1.2
    subst hkk
    have hvv : v = v' := by simpa [Memory.read] using h k
    subst hvv
    have htail : rest = rest' := by
      apply Memory.eq_of_read_eq rest rest' (k + 1) hm.2 hn.2
      intro a
      by_cases ha : a = k
      · subst ha
        rw [Memory.read_below rest (a + 1) a hm.2 (by omega), Memory.read_below rest' (a + 1) a hn.2 (by omega)]
      · simpa [Memory.read, ha] using h a
    rw [htail]

/-- The sum of the first entries depends on those entries only. -/
theorem bufSum_congr {m n : Memory} : ∀ (k : Nat), (∀ a, a < k → Memory.read m a = Memory.read n a) →
    bufSum m k = bufSum n k
  | 0, _ => rfl
  | k + 1, h => by
    simp only [bufSum]
    rw [bufSum_congr k (fun a ha => h a (by omega)), h k (by omega)]

/-- Storing the next payload byte adds it to the sum. -/
theorem bufSum_write {m : Memory} (h : Memory.wf m = true) (i : Idx) (b : Byte) :
    bufSum (bufWrite m i b) (i.toNat + 1) = bufSum m i.toNat + b.toNat := by
  simp only [bufSum]
  rw [bufWrite_read h, if_pos rfl]
  congr 1
  apply bufSum_congr
  intro a ha
  rw [bufWrite_read h, if_neg (by omega)]

/-- A byte sum is bounded by 255 for each byte. -/
theorem bufSum_le (m : Memory) : ∀ n, bufSum m n ≤ 255 * n
  | 0 => by simp [bufSum]
  | n + 1 => by
    have h1 := bufSum_le m n
    have h2 := (Memory.read m n).isLt
    simp only [bufSum]
    omega

end Sys2Proof.Machine
end

