-- ==== Sys2Proof/Laws/PerInstr.lean ====
section
/-! SUPPORT. The statements made of every row of the table, one lemma per constructor of `Instr`. -/

open Sys2Proof

namespace Sys2Proof.Laws

/-- R71: the encoder writes, for a well-formed term, a word that one of its row's patterns in the opcode table hits. -/
def EncodingMatchesRow.Statement (i : Instr) : Prop :=
  i.wf = true → i.patterns.any (·.hits (encode i).bits) = true

/-- R84: the 256 bytes, each against the two IDLE rows. -/
theorem idle_patterns : ∀ b : Byte,
    ((Instr.idleLenAccept 0).patterns.any (·.hits (TableWord.dw10 (0b00#2 ++ b)).bits) = isLenByte b) ∧
    ((Instr.idleDrop 0).patterns.any (·.hits (TableWord.dw10 (0b00#2 ++ b)).bits) = !isLenByte b) := by decide

/-- R112: the 256 command bytes against the second command row. -/
theorem command_patterns : ∀ c : Byte,
    (Instr.cmdUnrecognised 0).patterns.any (·.hits (TableWord.cmd8 c).bits) = (c != cmdSetChannelsCode) := by decide

/-- R72: a decode word of phase `c` is hit by the pattern that fixes the phase bits to `c` and no byte bit. -/
theorem phase_patterns : ∀ b : Byte,
    Pattern.hits ⟨0x300, 0x100⟩ (TableWord.dw10 (0b01#2 ++ b)).bits = true ∧
    Pattern.hits ⟨0x300, 0x200⟩ (TableWord.dw10 (0b10#2 ++ b)).bits = true ∧
    Pattern.hits ⟨0x300, 0x300⟩ (TableWord.dw10 (0b11#2 ++ b)).bits = true := by decide

theorem EncodingMatchesRow.idleLenAccept (b : Byte) : EncodingMatchesRow.Statement (.idleLenAccept b) :=
  fun h => (idle_patterns b).1.trans h

theorem EncodingMatchesRow.idleDrop (b : Byte) : EncodingMatchesRow.Statement (.idleDrop b) :=
  fun h => (idle_patterns b).2.trans h

theorem EncodingMatchesRow.accumByte (b : Byte) : EncodingMatchesRow.Statement (.accumByte b) :=
  fun _ => List.any_eq_true.2 ⟨_, .head _, (phase_patterns b).1⟩

theorem EncodingMatchesRow.ckloByte (b : Byte) : EncodingMatchesRow.Statement (.ckloByte b) :=
  fun _ => List.any_eq_true.2 ⟨_, .head _, (phase_patterns b).2.1⟩

theorem EncodingMatchesRow.ckhiCommit (b : Byte) : EncodingMatchesRow.Statement (.ckhiCommit b) :=
  fun _ => List.any_eq_true.2 ⟨_, .head _, (phase_patterns b).2.2⟩

theorem EncodingMatchesRow.ckhiDiscardCmd (b : Byte) : EncodingMatchesRow.Statement (.ckhiDiscardCmd b) :=
  fun _ => List.any_eq_true.2 ⟨_, .head _, (phase_patterns b).2.2⟩

theorem EncodingMatchesRow.ckhiReject (b : Byte) : EncodingMatchesRow.Statement (.ckhiReject b) :=
  fun _ => List.any_eq_true.2 ⟨_, .head _, (phase_patterns b).2.2⟩

theorem EncodingMatchesRow.ckhiDiscardShort (b : Byte) : EncodingMatchesRow.Statement (.ckhiDiscardShort b) :=
  fun _ => List.any_eq_true.2 ⟨_, .head _, (phase_patterns b).2.2⟩

theorem EncodingMatchesRow.cmdSetChannels : EncodingMatchesRow.Statement .cmdSetChannels := fun _ => rfl

theorem EncodingMatchesRow.cmdUnrecognised (cmd : Byte) : EncodingMatchesRow.Statement (.cmdUnrecognised cmd) :=
  fun h => (command_patterns cmd).trans h

theorem EncodingMatchesRow.mixTick : EncodingMatchesRow.Statement .mixTick := fun _ => rfl
theorem EncodingMatchesRow.mixStraight : EncodingMatchesRow.Statement .mixStraight := fun _ => rfl
theorem EncodingMatchesRow.mixRight : EncodingMatchesRow.Statement .mixRight := fun _ => rfl
theorem EncodingMatchesRow.mixLeft : EncodingMatchesRow.Statement .mixLeft := fun _ => rfl
theorem EncodingMatchesRow.reset : EncodingMatchesRow.Statement .reset := fun _ => rfl

/-- R200: the context `decodeTableWord` decodes in is that of the state after reset. -/
theorem decodeCtx_reset : Machine.decodeCtx Machine.State.reset = DecodeCtx.atReset := rfl

end Sys2Proof.Laws
end

