-- ==== Sys2Proof/Laws/Step.lean ====
section
/-! SUPPORT. Everything a step can do, once. -/

namespace Sys2Proof.Machine

@[simp] theorem holdState_eq (s : State) : holdState s = withInputs s.inputs.tail s := rfl

/-- The words a step fetches, by what the next cycle presents. -/
theorem fetchWord_nil {s : State} (h : s.inputs = []) : fetchWord s = none := by simp [fetchWord, h]

theorem fetchWord_reset {s : State} {p : PortIn} {rest : List PortIn} (h : s.inputs = p :: rest) (hr : p.rst = true) :
    fetchWord s = some (.ev3 p.ev, rest) := by simp [fetchWord, h, hr]

theorem fetchWord_tick {s : State} {p : PortIn} {rest : List PortIn} (h : s.inputs = p :: rest) (hr : p.rst = false)
    (ht : p.tick = true) : fetchWord s = some (.ev3 p.ev, afterTick p rest) := by simp [fetchWord, h, hr, ht]

theorem fetchWord_byte {s : State} {p : PortIn} {rest : List PortIn} (h : s.inputs = p :: rest) (hr : p.rst = false)
    (ht : p.tick = false) (hv : p.inValid = true) :
    fetchWord s = some (.dw10 (decodeWordOf s.phase p.inByte), rest) := by simp [fetchWord, h, hr, ht, hv]

theorem fetchWord_idle {s : State} {p : PortIn} {rest : List PortIn} (h : s.inputs = p :: rest) (hr : p.rst = false)
    (ht : p.tick = false) (hv : p.inValid = false) : fetchWord s = none := by simp [fetchWord, h, hr, ht, hv]

/-- The steps, by what the next cycle presents. -/
theorem step_nil {s : State} (ha : s.cfg.admitted = true) (h : s.inputs = []) : step s = .next s := by
  have : withInputs s.inputs.tail s = s := by simp [withInputs, h]; cases s; simp_all
  simp [step, ha, fetchWord_nil h, this]

theorem step_idle {s : State} {p : PortIn} {rest : List PortIn} (ha : s.cfg.admitted = true) (h : s.inputs = p :: rest)
    (hr : p.rst = false) (ht : p.tick = false) (hv : p.inValid = false) : step s = .next (withInputs rest s) := by
  simp [step, ha, fetchWord_idle h hr ht hv, h]

theorem step_reset {s : State} {p : PortIn} {rest : List PortIn} (ha : s.cfg.admitted = true) (h : s.inputs = p :: rest)
    (hr : p.rst = true) : step s = .next (resetRegisters (withInputs rest s)) := by
  have h2 : p.ev.getLsbD 2 = true := by rw [PortIn.ev, portVector_rst, hr]
  simp only [step, ifAdmitted_of_admitted ha, fetchWord_reset h hr, decode, h2, if_true, exec_reset]

theorem step_tick {s : State} {p : PortIn} {rest : List PortIn} (ha : s.cfg.admitted = true) (h : s.inputs = p :: rest)
    (hr : p.rst = false) (ht : p.tick = true) : step s = exec .mixTick (withInputs (afterTick p rest) s) := by
  have h2 : p.ev.getLsbD 2 = false := by rw [PortIn.ev, portVector_rst, hr]
  have h1 : p.ev.getLsbD 1 = true := by rw [PortIn.ev, portVector_tick, ht]
  simp only [step, ifAdmitted_of_admitted ha, fetchWord_tick h hr ht, decode, h2, h1, if_true, Bool.false_eq_true,
    if_false]

theorem step_byte {s : State} {p : PortIn} {rest : List PortIn} (ha : s.cfg.admitted = true) (h : s.inputs = p :: rest)
    (hr : p.rst = false) (ht : p.tick = false) (hv : p.inValid = true) :
    step s = exec (decodeByte (decodeCtx s) s.phase p.inByte) (withInputs rest s) := by
  simp [step, ha, fetchWord_byte h hr ht hv, decode]

/-- What a BYTE event does, by the phase it arrives in (R100). -/
inductive ByteEffect (b : Byte) (s : State) : State → Prop where
  | accept (hp : s.phase = .idle) (hb : 3 < b.toNat ∧ b.toNat ≤ 32) : ByteEffect b s (acceptLength b s)
  | drop (hp : s.phase = .idle) (hb : ¬ (3 < b.toNat ∧ b.toNat ≤ 32)) : ByteEffect b s s
  | store (hp : s.phase = .accum) : ByteEffect b s (storePayload b s)
  | hold (hp : s.phase = .ckLo) : ByteEffect b s (holdLowByte b s)
  | commit (hp : s.phase = .ckHi) (hm : s.cklo.toNat + 256 * b.toNat = s.csum.toNat)
      (hc : bufRead s.buf 0 = 0x40) (hl : 13 ≤ s.len.toNat) :
      ByteEffect b s (returnToIdle (publish (decode6 s.buf) s))
  | discard (hp : s.phase = .ckHi)
      (hn : ¬ (s.cklo.toNat + 256 * b.toNat = s.csum.toNat ∧ bufRead s.buf 0 = 0x40 ∧ 13 ≤ s.len.toNat)) :
      ByteEffect b s (returnToIdle s)

/-- R100: a byte runs its row, and that row's effect is one of `ByteEffect`. -/
theorem exec_decodeByte (b : Byte) (s : State) :
    ∃ t, exec (decodeByte (decodeCtx s) s.phase b) s = .next t ∧ ByteEffect b s t := by
  cases hp : s.phase with
  | idle =>
    by_cases hb : lenAccepted b = true
    · exact ⟨_, by simp [decodeByte, hb], .accept hp ((lenAccepted_iff b).1 hb)⟩
    · exact ⟨_, by simp [decodeByte, hb], .drop hp (mt (lenAccepted_iff b).2 hb)⟩
  | accum => exact ⟨_, by simp [decodeByte], .store hp⟩
  | ckLo => exact ⟨_, by simp [decodeByte], .hold hp⟩
  | ckHi =>
    have hm : csumMatch (decodeCtx s) b = true ↔ s.cklo.toNat + 256 * b.toNat = s.csum.toNat :=
      csumMatch_iff (decodeCtx s) b
    have hl : frameShort (decodeCtx s) = true ↔ s.len.toNat < 13 := frameShort_iff (decodeCtx s)
    by_cases h1 : csumMatch (decodeCtx s) b = true
    · by_cases h2 : (decodeCtx s).cmd = 0x40#8
      · by_cases h3 : frameShort (decodeCtx s) = true
        · have hn := hl.1 h3
          exact ⟨_, by simp [decodeByte, h1, h2, h3], .discard hp (by omega)⟩
        · have hn := mt hl.2 h3
          exact ⟨_, by simp [decodeByte, h1, h2, h3], .commit hp (hm.1 h1) h2 (by omega)⟩
      · exact ⟨_, by simp [decodeByte, h1, h2], .discard hp (fun h => h2 h.2.1)⟩
    · exact ⟨_, by simp [decodeByte, h1], .discard hp (fun h => h1 (hm.2 h.1))⟩

/-- The events a step can take, with what each does to the state. -/
inductive StepEffect (s : State) : State → Prop where
  | hold (rest : List PortIn) (hi : s.inputs.tail = rest)
      (hn : s.inputs = [] ∨ ∃ p, s.inputs = p :: rest ∧ p.rst = false ∧ p.tick = false ∧ p.inValid = false) :
      StepEffect s (withInputs rest s)
  | reset (p : PortIn) (rest : List PortIn) (hi : s.inputs = p :: rest) (hr : p.rst = true) :
      StepEffect s (resetRegisters (withInputs rest s))
  | tick (p : PortIn) (rest : List PortIn) (hi : s.inputs = p :: rest) (hr : p.rst = false) (ht : p.tick = true)
      (v : Speeds) (hva : v.a.toNat ≤ s.cfg.dutyMax.toNat) (hvb : v.b.toNat ≤ s.cfg.dutyMax.toNat) :
      StepEffect s (driveForward v (withInputs (afterTick p rest) s))
  | byte (p : PortIn) (rest : List PortIn) (hi : s.inputs = p :: rest) (hr : p.rst = false) (ht : p.tick = false)
      (hv : p.inValid = true) (t : State) (he : ByteEffect p.inByte (withInputs rest s) t) : StepEffect s t

/-- In an admitted configuration every step completes, with one of the effects of `StepEffect`. -/
theorem step_effect {s : State} (ha : s.cfg.admitted = true) : ∃ t, step s = .next t ∧ StepEffect s t := by
  cases hi : s.inputs with
  | nil => exact ⟨_, step_nil ha hi, by simpa [withInputs, ← hi] using StepEffect.hold (s := s) [] (by simp [hi]) (.inl hi)⟩
  | cons p rest =>
    by_cases hr : p.rst = true
    · exact ⟨_, step_reset ha hi hr, .reset p rest hi hr⟩
    · simp only [Bool.not_eq_true] at hr
      by_cases ht : p.tick = true
      · have ha' : (withInputs (afterTick p rest) s).cfg.admitted = true := ha
        have he := exec_mixTick ha'
        have hc := exec_mixTick_cases he
        obtain ⟨v, hva, hvb, hv⟩ := hc.2
        rw [hv] at he
        exact ⟨_, (step_tick ha hi hr ht).trans he, .tick p rest hi hr ht v hva hvb⟩
      · simp only [Bool.not_eq_true] at ht
        by_cases hv : p.inValid = true
        · obtain ⟨t, h1, h2⟩ := exec_decodeByte p.inByte (withInputs rest s)
          exact ⟨t, (step_byte ha hi hr ht hv).trans h1, .byte p rest hi hr ht hv t h2⟩
        · simp only [Bool.not_eq_true] at hv
          exact ⟨_, step_idle ha hi hr ht hv, .hold rest (by simp [hi]) (.inr ⟨p, hi, hr, ht, hv⟩)⟩

/-- A step that answers a next state ran in an admitted configuration and had one of the effects of `StepEffect`. -/
theorem step_cases {s t : State} (h : step s = .next t) : s.cfg.admitted = true ∧ StepEffect s t := by
  have ha : s.cfg.admitted = true := (ifAdmitted_next h).1
  obtain ⟨t', h1, h2⟩ := step_effect ha
  rw [h1] at h
  injection h with h
  exact ⟨ha, h ▸ h2⟩

/-! ### Runs -/

@[simp] theorem run_zero (s : State) : run 0 s = .next s := rfl

/-- One step of a run. -/
theorem run_unfold (n : Nat) (s : State) :
    run (n + 1) s = match step s with
      | .next s' => run n s'
      | .fault r => .fault r
      | .refused r => .refused r := rfl

/-- `run` is the host's run of the machine. -/
theorem core_run_eq_run : ∀ (n : Nat) (s : State), Host.Core.run Sys2Proof.core n s = run n s
  | 0, _ => rfl
  | n + 1, s => by
    refine (Host.Core.run.eq_2 Sys2Proof.core s n).trans ?_
    rw [run_unfold]
    cases h : step s with
    | next t => rw [show Sys2Proof.core.step s = .next t from h]; exact core_run_eq_run n t
    | fault r => cases r
    | refused r => rw [show Sys2Proof.core.step s = .refused r from h]; rfl

theorem run_succ {s t : State} (n : Nat) (h : step s = .next t) : run (n + 1) s = run n t := by
  rw [run_unfold, h]

/-- A configuration that is not admitted is refused at the first step. -/
theorem step_not_admitted {s : State} (h : ¬ s.cfg.admitted = true) : step s = .refused .dirModeNotAdmitted := by
  simp [step, ifAdmitted, h]

/-- A run that answers a next state began with a step that did. -/
theorem run_succ_next {s t : State} {n : Nat} (h : run (n + 1) s = .next t) :
    ∃ u, step s = .next u ∧ run n u = .next t := by
  by_cases ha : s.cfg.admitted = true
  · obtain ⟨u, hu, -⟩ := step_effect ha
    exact ⟨u, hu, by rwa [run_succ n hu] at h⟩
  · rw [run_unfold, step_not_admitted ha] at h
    cases h

/-- Runs compose. -/
theorem run_add : ∀ (m n : Nat) {s t : State}, run m s = .next t → run (m + n) s = run n t
  | 0, n, s, t, h => by
    rw [run_zero] at h
    injection h with h
    rw [Nat.zero_add, h]
  | m + 1, n, s, t, h => by
    obtain ⟨u, hu, hr⟩ := run_succ_next h
    rw [Nat.add_right_comm, run_succ _ hu]
    exact run_add m n hr

end Sys2Proof.Machine
end

