-- ==== Sys2Proof/Tests/Slice0.lean ====
section
/-! SUPPORT. Our own tests: the well-formedness smoke test, a word of every row written out from the opcode table, the
single-event vectors of 95_test_vectors.md, and a witness for the hypotheses of every statement. -/

namespace Sys2Proof.Tests

open Sys2Proof Sys2Proof.Machine

/-! ### Helpers -/

/-- Does the outcome go on to a state with the property? -/
def holds (o : Host.Outcome State Fault Refusal) (p : State → Bool) : Bool :=
  match o with
  | .next t => p t
  | .fault _ => false
  | .refused _ => false

theorem next_of_holds {o : Host.Outcome State Fault Refusal} {p : State → Bool} (h : holds o p = true) :
    ∃ t, o = .next t ∧ p t = true := by
  cases o with
  | next t => exact ⟨t, rfl, h⟩
  | fault r => cases h
  | refused r => cases h

/-- The state `(phase, len, ptr, csum, cklo)` of the vectors, with a buffer. -/
def frame (phase : Phase) (len ptr : Idx) (csum : Half) (cklo : Byte) (buf : Memory) : State :=
  { State.reset with phase := phase, len := len, ptr := ptr, csum := csum, cklo := cklo, buf := buf }

/-- Is the state `(phase, len, ptr, csum, cklo)`? -/
def inFrame (phase : Phase) (len ptr : Idx) (csum : Half) (cklo : Byte) (t : State) : Bool :=
  t.phase == phase && t.len == len && t.ptr == ptr && t.csum == csum && t.cklo == cklo

/-- A state with the two channels that a tick reads. -/
def sticks (steer throttle : Half) : State :=
  { State.reset with channels := { Channels.zero with ch0 := steer, ch2 := throttle } }

/-- Does a tick drive the motors at these speeds, forward? -/
def drives (row : Instr) (steer throttle : Half) (a b : Half) : Bool :=
  holds (exec row (sticks steer throttle)) fun t =>
    t.motorA == { speed := a, dir := .forward } && t.motorB == { speed := b, dir := .forward }

/-- Reset registers with port cycles waiting. -/
def waiting (ps : List PortIn) : State := { State.reset with inputs := ps }

/-- The payload of V-FR-1, `40 D0 07 DC 05 D0 07 DC 05 DC 05 DC 05`, as buffer cells. -/
def bufFr1 : Memory :=
  [(0, 0x40), (1, 0xD0), (2, 0x07), (3, 0xDC), (4, 0x05), (5, 0xD0), (6, 0x07), (7, 0xDC), (8, 0x05), (9, 0xDC),
    (10, 0x05), (11, 0xDC), (12, 0x05)]

/-- V-FR-1 at its last byte. -/
def atCommit : State := frame .ckHi 13 13 0xFA7D 0x7D bufFr1

/-- `04 40 BB FF` (V-FR-4) after its length byte. -/
def atAccum : State := frame .accum 1 0 0xFFFB 0 []

/-- V-FR-4 at its last byte. -/
def atShort : State := frame .ckHi 1 1 0xFFBB 0xBB [(0, 0x40)]

/-- V-DEC-16: a matching frame with command 0x41, at its last byte. -/
def atOtherCommand : State := frame .ckHi 13 13 0xFA2C 0x2C [(0, 0x41)]

/-! ### WellFormed refuses ill-formed terms (R74, R112) -/

theorem test_wf_refuses_short_length : (Instr.idleLenAccept 0x03).wf = false := by decide
theorem test_wf_refuses_long_length : (Instr.idleLenAccept 0x21).wf = false := by decide
theorem test_wf_accepts_length_ends : (Instr.idleLenAccept 0x04).wf = true ∧ (Instr.idleLenAccept 0x20).wf = true := by
  decide
theorem test_wf_refuses_dropped_length : (Instr.idleDrop 0x10).wf = false := by decide
theorem test_wf_refuses_known_command : (Instr.cmdUnrecognised 0x40).wf = false := by decide

/-! ### A word of every row, written from spec/opcode_table.json -/

/-- V-FR-1 at its high byte: the guards' registers that make a commit. -/
def commitCtx : DecodeCtx := { csum := 0xFA7D, cklo := 0x7D, cmd := 0x40, len := 13, steer := 1500 }

theorem test_decode_idle_len_accept : decode commitCtx (.dw10 0b0000010000) = .ok (.idleLenAccept 0x10) := by rfl
theorem test_decode_idle_drop : decode commitCtx (.dw10 0b0011111111) = .ok (.idleDrop 0xFF) := by rfl
theorem test_decode_accum_byte : decode commitCtx (.dw10 0b0111010000) = .ok (.accumByte 0xD0) := by rfl
theorem test_decode_cklo_byte : decode commitCtx (.dw10 0b1001111101) = .ok (.ckloByte 0x7D) := by rfl
theorem test_decode_ckhi_commit : decode commitCtx (.dw10 0b1111111010) = .ok (.ckhiCommit 0xFA) := by rfl
theorem test_decode_ckhi_discard_cmd :
    decode { commitCtx with cmd := 0x41 } (.dw10 0b1111111010) = .ok (.ckhiDiscardCmd 0xFA) := by rfl
theorem test_decode_ckhi_reject : decode commitCtx (.dw10 0b1111111011) = .ok (.ckhiReject 0xFB) := by rfl
theorem test_decode_ckhi_discard_short :
    decode { commitCtx with len := 12 } (.dw10 0b1111111010) = .ok (.ckhiDiscardShort 0xFA) := by rfl
theorem test_decode_cmd_set_channels : decode commitCtx (.cmd8 0b01000000) = .ok .cmdSetChannels := by rfl
theorem test_decode_cmd_unrecognised : decode commitCtx (.cmd8 0b11000000) = .ok (.cmdUnrecognised 0xC0) := by rfl
theorem test_decode_mix_tick : decode commitCtx (.ev3 0b011) = .ok .mixTick := by rfl
theorem test_decode_mix_straight : decode { commitCtx with steer := 1509 } (.tick3 0b010) = .ok .mixStraight := by rfl
theorem test_decode_mix_right : decode { commitCtx with steer := 1510 } (.tick3 0b010) = .ok .mixRight := by rfl
theorem test_decode_mix_left : decode { commitCtx with steer := 1490 } (.tick3 0b010) = .ok .mixLeft := by rfl
theorem test_decode_reset : decode commitCtx (.ev3 0b111) = .ok .reset := by rfl
theorem test_decode_no_event : decode commitCtx (.ev3 0b000) = .error .noEvent := by rfl
theorem test_decode_byte_event : decode commitCtx (.ev3 0b001) = .error .byteEvent := by rfl

/-- The words of rows with a fixed pattern, as numbers laid out in bytes. -/
theorem test_decode_table_words :
    decodeTableWord 10 0x110 = some (.accumByte 0x10) ∧ decodeTableWord 8 0xFF = some (.cmdUnrecognised 0xFF) ∧
      decodeTableWord 3 0b000 = some (.cmdUnrecognised 0) ∧ decodeTableWord 10 0x400 = none := by decide

/-- What is placed for the next step is what it runs: `10` in IDLE starts a frame, and command 0x41 discards one. -/
theorem test_step_runs_placed_words :
    holds (step (State.reset.withFetchWord 10 0x010)) (inFrame .accum 13 0 0xFFEF 0) = true ∧
      holds (step (State.reset.withFetchWord 8 0x41)) (fun t => t.phase == .idle && t.buf == [(0, 0x41)]) = true ∧
      holds (step (State.reset.withFetchWord 3 0b010)) (fun t => t == State.reset) = true := by decide

/-! ### Single events of the decoder (95_test_vectors.md part 2) -/

/-- V-DEC-3, V-DEC-5. -/
theorem test_idle_len_accept :
    holds (exec (.idleLenAccept 0x04) atCommit) (inFrame .accum 1 0 0xFFFB 0x7D) = true ∧
      holds (exec (.idleLenAccept 0x20) atCommit) (inFrame .accum 29 0 0xFFDF 0x7D) = true := by decide
/-- V-DEC-6, through a step. -/
theorem test_idle_drop : holds (step (waiting [byteCycle 0x21])) (fun t => t == State.reset) = true := by decide
/-- V-DEC-9. -/
theorem test_accum_last_byte :
    holds (exec (.accumByte 0x40) atAccum) (fun t => inFrame .ckLo 1 1 0xFFBB 0 t && t.buf == [(0, 0x40)]) = true := by
  decide
/-- V-DEC-10: a zero byte, over a byte of an earlier frame. -/
theorem test_accum_zero_byte :
    holds (exec (.accumByte 0x00) (frame .accum 13 3 0xFED8 0 [(0, 0x40), (3, 0x77)]))
      (fun t => inFrame .accum 13 4 0xFED8 0 t && t.buf == [(0, 0x40)]) = true := by decide
/-- V-DEC-13. -/
theorem test_cklo_byte :
    holds (exec (.ckloByte 0x10) (frame .ckLo 13 13 0xFA7D 0 [])) (inFrame .ckHi 13 13 0xFA7D 0x10) = true := by decide
/-- V-DEC-17, through a step. -/
theorem test_ckhi_commit :
    holds (step { atCommit with inputs := [byteCycle 0xFA] }) (fun t => inFrame .idle 13 13 0xFA7D 0x7D t &&
      t.channels == { ch0 := 2000, ch1 := 1500, ch2 := 2000, ch3 := 1500, ch4 := 1500, ch5 := 1500 }) = true := by decide
/-- V-DEC-16, through a step. -/
theorem test_ckhi_discard_cmd :
    holds (step { atOtherCommand with inputs := [byteCycle 0xFA] })
      (fun t => inFrame .idle 13 13 0xFA2C 0x2C t && t.channels == Channels.zero) = true := by decide
/-- V-DEC-15: the two checksum bytes in the wrong order. -/
theorem test_ckhi_reject_swapped :
    holds (step { atCommit with cklo := 0xFA, inputs := [byteCycle 0x7D] })
      (fun t => t.phase == .idle && t.channels == Channels.zero) = true := by decide
/-- V-DEC-20: the command is not examined when the checksum fails. -/
theorem test_ckhi_reject_first : decode (decodeCtx { atOtherCommand with cklo := 0x2B }) (.dw10 0x3FA) =
    .ok (.ckhiReject 0xFA) := by rfl
/-- V-DEC-18, through a step. -/
theorem test_ckhi_discard_short :
    holds (step { atShort with inputs := [byteCycle 0xFF] })
      (fun t => t.phase == .idle && t.channels == Channels.zero) = true := by decide
/-- R111: 0x40 commits the 16-byte frame and not the 4-byte one. -/
theorem test_cmd_set_channels :
    holds (exec .cmdSetChannels atCommit) (fun t => t.channels.ch0 == 2000) = true ∧
      holds (exec .cmdSetChannels atShort) (fun t => t.channels == Channels.zero && t.phase == .idle) = true := by decide
/-- R112: 0x41 with a matching checksum discards. -/
theorem test_cmd_unrecognised :
    holds (exec (.cmdUnrecognised 0x41) atOtherCommand) (fun t => t == { atOtherCommand with phase := .idle }) = true := by
  decide

/-! ### Single ticks (95_test_vectors.md part 4.2) -/

/-- V-MIX-1, V-MIX-16, V-MIX-17, V-MIX-13, V-MIX-14. -/
theorem test_mix_straight :
    drives .mixStraight 1500 1750 375 375 = true ∧ drives .mixStraight 1500 1499 250 250 = true ∧
      drives .mixStraight 1500 1001 1 1 = true ∧ drives .mixStraight 1500 2001 0 0 = true ∧
      drives .mixStraight 1500 999 0 0 = true := by decide
/-- V-MIX-6, V-MIX-9, V-MIX-10, V-MIX-15, V-MIX-26, V-MIX-27. -/
theorem test_mix_right :
    drives .mixRight 1510 1750 375 365 = true ∧ drives .mixRight 1512 2000 500 490 = true ∧
      drives .mixRight 1513 2000 500 485 = true ∧ drives .mixRight 65535 2000 500 0 = true ∧
      drives .mixRight 1600 2100 0 450 = true ∧ drives .mixRight 2000 2001 0 1 = true := by decide
/-- V-MIX-3, V-MIX-8, V-MIX-12, V-MIX-28, V-MIX-35. -/
theorem test_mix_left :
    drives .mixLeft 1490 1750 365 375 = true ∧ drives .mixLeft 1250 1750 125 375 = true ∧
      drives .mixLeft 0 0 0 0 = true ∧ drives .mixLeft 1400 2100 450 0 = true ∧
      drives .mixLeft 0 4001 1 0 = true := by decide
/-- V-MIX-3 to V-MIX-6: the four edges of the dead-band. -/
theorem test_mix_tick :
    drives .mixTick 1490 1750 365 375 = true ∧ drives .mixTick 1491 1750 375 375 = true ∧
      drives .mixTick 1509 1750 375 375 = true ∧ drives .mixTick 1510 1750 375 365 = true := by decide
/-- V-MIX-40, V-MIX-43: other values of DUTY_MAX. -/
theorem test_mix_duty :
    holds (exec .mixTick { sticks 2000 2000 with cfg := { Config.example500 with dutyMax := 0 } })
      (fun t => t.motorA.speed == 0 && t.motorB.speed == 0) = true ∧
    holds (exec .mixTick { sticks 1500 1500 with cfg := { Config.example500 with dutyMax := 65535 } })
      (fun t => t.motorA.speed == 32768 && t.motorB.speed == 32768) = true := by decide
/-- R200, in the middle of a frame, with the host's next cycle still waiting. -/
theorem test_reset :
    holds (exec .reset { atCommit with motorA := { speed := 9, dir := .forward }, inputs := [tickCycle] })
      (fun t => t == waiting [tickCycle]) = true := by decide

/-- V-N-3, V-N-12, V-N-15 and V-SRC-7. -/
theorem test_normalize :
    (mixerNormalize 1001 1000 2000 0 500).speed = 1 ∧ (mixerNormalize 2001 1000 2000 0 500).speed = 0 ∧
      (mixerNormalize (-1) 1000 2000 0 500).speed = 0 ∧ (mixerNormalize 15 10 20 0 100).speed = 50 ∧
      (mixerNormalize 15 10 20 100 0).speed = 0 := by decide
/-- R83, V-FR-1. -/
theorem test_ch6_frame :
    ch6Frame { ch0 := 2000, ch1 := 1500, ch2 := 2000, ch3 := 1500, ch4 := 1500, ch5 := 1500 } =
      [0x10, 0x40, 0xD0, 0x07, 0xDC, 0x05, 0xD0, 0x07, 0xDC, 0x05, 0xDC, 0x05, 0xDC, 0x05, 0x7D, 0xFA] := by decide

/-! ### Witnesses: concrete states and operands that meet the hypotheses of each statement, clause by clause -/

/-- The other direction mode. -/
def otherMode : State := State.resetWith { dutyMax := 500, dirMode := .throttleBand }

/-- A cycle with a tick and a byte. -/
def tickAndByte (b : Byte) : PortIn := { rst := false, tick := true, inValid := true, inByte := b }

/-- The 32-byte frame V-FR-11, its payload. -/
def longPayload : List Byte := 0x40 :: List.replicate 28 0xFF

/-- Six channel values with both bytes used. -/
def someChannels : Channels := { ch0 := 2000, ch1 := 0, ch2 := 65535, ch3 := 1500, ch4 := 256, ch5 := 255 }

theorem witness_StepRunsDecodedInstruction :
    (waiting [byteCycle 0x10]).cfg.admitted = true ∧
      fetchWord (waiting [byteCycle 0x10]) = some (.dw10 0x010, []) ∧
      decode (decodeCtx (waiting [byteCycle 0x10])) (.dw10 0x010) = .ok (.idleLenAccept 0x10) ∧
      (Instr.idleLenAccept 0x10).wf = true := ⟨rfl, rfl, rfl, rfl⟩

theorem witness_CyclePresentsItsEventsInOrder :
    (waiting [resetCycle]).inputs = resetCycle :: [] ∧ resetCycle.rst = true ∧
      (tickAndByte 1).rst = false ∧ (tickAndByte 1).tick = true ∧ (tickAndByte 1).inValid = true ∧
      tickCycle.rst = false ∧ tickCycle.tick = true ∧ tickCycle.inValid = false ∧
      (byteCycle 1).rst = false ∧ (byteCycle 1).tick = false ∧ (byteCycle 1).inValid = true ∧
      (PortIn.mk false false false 1).rst = false ∧ (PortIn.mk false false false 1).tick = false ∧
      (PortIn.mk false false false 1).inValid = false := by decide

theorem witness_EveryStepCompletes :
    State.reset.cfg.admitted = true ∧ fetchWord (waiting [tickCycle]) = some (.ev3 0b010, []) := ⟨rfl, rfl⟩

theorem witness_OtherDirectionModeIsRefused : otherMode.cfg.dirMode = .throttleBand ∧ otherMode ≠ State.reset := by
  decide

theorem witness_NoEventHoldsTheState :
    State.reset.cfg.admitted = true ∧ State.reset.inputs = [] ∧
      (waiting [PortIn.mk false false false 7]).inputs = [PortIn.mk false false false 7] := by decide

theorem witness_ResetCycleLosesItsTickAndByte :
    ({ atCommit with inputs := [PortIn.mk true true true 0xFA] } : State).cfg.admitted = true ∧
      ({ atCommit with inputs := [PortIn.mk true true true 0xFA] } : State).inputs = PortIn.mk true true true 0xFA :: [] :=
  ⟨rfl, rfl⟩

theorem witness_TickReadsChannelsFromBeforeItsCyclesByte :
    ({ atCommit with inputs := [tickAndByte 0xFA] } : State).cfg.admitted = true ∧
      ({ atCommit with inputs := [tickAndByte 0xFA] } : State).inputs = tickAndByte 0xFA :: [] := ⟨rfl, rfl⟩

theorem witness_NoEventWritesTheConfiguration :
    (∃ t, step (waiting [byteCycle 0x10]) = .next t) ∧ ∃ t, exec (.accumByte 1) atAccum = .next t :=
  ⟨⟨_, rfl⟩, ⟨_, rfl⟩⟩

/-- Both ends of the length byte's range. -/
theorem witness_IdleLenAcceptStartsAFrame :
    State.reset.phase = .idle ∧ 3 < (0x04 : Byte).toNat ∧ (0x04 : Byte).toNat ≤ 32 ∧ 3 < (0x20 : Byte).toNat ∧
      (0x20 : Byte).toNat ≤ 32 := by decide

theorem witness_IdleDropLeavesNoTrace :
    State.reset.phase = .idle ∧ ((0x03 : Byte).toNat ≤ 3 ∨ 32 < (0x03 : Byte).toNat) ∧
      ((0x21 : Byte).toNat ≤ 3 ∨ 32 < (0x21 : Byte).toNat) := by decide

/-- The one byte of a one-byte payload (`ptr + 1 = len`), and the highest index with more bytes to come. -/
theorem witness_AccumByteStoresAndSubtracts :
    atAccum.phase = .accum ∧ atAccum.ptr.toNat < atAccum.len.toNat ∧ Memory.wf atAccum.buf = true ∧
      atAccum.ptr.toNat + 1 = atAccum.len.toNat ∧
      (frame .accum 29 27 0xE5B9 0 []).ptr.toNat < (frame .accum 29 27 0xE5B9 0 []).len.toNat ∧
      (frame .accum 29 27 0xE5B9 0 []).ptr.toNat + 1 ≠ (frame .accum 29 27 0xE5B9 0 []).len.toNat := by decide

theorem witness_CkloByteHoldsTheLowByte : (frame .ckLo 13 13 0xFA7D 0 bufFr1).phase = .ckLo := rfl

/-- `len = 13`, the least that commits. -/
theorem witness_CkhiCommitPublishesSixChannels :
    atCommit.phase = .ckHi ∧ atCommit.cklo.toNat + 256 * (0xFA : Byte).toNat = atCommit.csum.toNat ∧
      Memory.read atCommit.buf 0 = 0x40 ∧ 13 ≤ atCommit.len.toNat := by decide

theorem witness_CkhiRejectAndDiscardOnlyReturnToIdle :
    atCommit.phase = .ckHi ∧ atCommit.cklo.toNat + 256 * (0xFB : Byte).toNat ≠ atCommit.csum.toNat ∧
      atOtherCommand.phase = .ckHi ∧
      atOtherCommand.cklo.toNat + 256 * (0xFA : Byte).toNat = atOtherCommand.csum.toNat ∧
      Memory.read atOtherCommand.buf 0 ≠ 0x40 ∧ Instr.ckhiReject 0xFB ∈ [Instr.ckhiReject 0xFB, .ckhiDiscardCmd 0xFB] := by
  decide

/-- `len = 1` (V-DEC-18) and `len = 12` (V-DEC-19), both ends of the short lengths. -/
theorem witness_CkhiShortFrameIsDiscarded :
    atShort.phase = .ckHi ∧ atShort.cklo.toNat + 256 * (0xFF : Byte).toNat = atShort.csum.toNat ∧
      Memory.read atShort.buf 0 = 0x40 ∧ atShort.len.toNat < 13 ∧
      0x3D + 256 * (0xFA : Byte).toNat = (frame .ckHi 12 12 0xFA3D 0x3D [(0, 0x40)]).csum.toNat ∧
      (frame .ckHi 12 12 0xFA3D 0x3D [(0, 0x40)]).len.toNat < 13 := by decide

theorem witness_CommandByteDecidesTheFrame :
    atCommit.phase = .ckHi ∧ atCommit.cklo.toNat + 256 * (0xFA : Byte).toNat = atCommit.csum.toNat ∧
      13 ≤ atCommit.len.toNat ∧ atShort.len.toNat < 13 ∧ (0x3F : Byte) ≠ 0x40 ∧ (0x41 : Byte) ≠ 0x40 := by decide

/-- The two inner edges of the dead-band. -/
theorem witness_MixStraightGivesBothMotorsFullSpeed :
    (sticks 1491 1750).cfg.admitted = true ∧ steerBand (sticks 1491 1750).channels.ch0 = .straight ∧
      steerBand (sticks 1509 1750).channels.ch0 = .straight := by decide

theorem witness_MixRightReducesMotorB :
    (sticks 1510 1750).cfg.admitted = true ∧ steerBand (sticks 1510 1750).channels.ch0 = .right ∧
      steerBand (sticks 65535 2000).channels.ch0 = .right := by decide

theorem witness_MixLeftReducesMotorA :
    (sticks 1490 1750).cfg.admitted = true ∧ steerBand (sticks 1490 1750).channels.ch0 = .left ∧
      steerBand (sticks 0 0).channels.ch0 = .left := by decide

theorem witness_MixTickRunsItsBandsRule :
    (sticks 1510 1750).cfg.admitted = true ∧ 1510 ≤ (sticks 1510 1750).channels.ch0.toNat ∧
      (sticks 1490 1750).channels.ch0.toNat ≤ 1490 ∧ 1490 < (sticks 1491 1750).channels.ch0.toNat ∧
      (sticks 1509 1750).channels.ch0.toNat < 1510 := by decide

/-- In range at both ends; out of range on each side, with an empty new range, and with an empty old one (D17). -/
theorem witness_NormalizeRoundsTheExactRational :
    (mixerNormalize 1000 1000 2000 0 500).ok = true ∧ (mixerNormalize 2000 1000 2000 0 500).ok = true ∧
      (mixerNormalize 999 1000 2000 0 500).ok = false ∧ (mixerNormalize 2001 1000 2000 0 500).ok = false ∧
      (mixerNormalize 1500 1000 2000 0 0).ok = false ∧ (mixerNormalize 7 7 7 0 500).ok = false := by decide

theorem witness_MixerIntermediatesStayInTheirWidths :
    1510 ≤ (1510 : Half).toNat ∧ 1510 ≤ (65535 : Half).toNat ∧ (1490 : Half).toNat ≤ 1490 ∧ (0 : Half).toNat ≤ 1490 ∧
      (1000 : Int) ≤ 1000 ∧ (2000 : Int) ≤ 2000 := by decide

theorem witness_TickOutputsAreBoundedAndForward :
    Instr.mixTick ∈ [Instr.mixTick, .mixStraight, .mixRight, .mixLeft] ∧
      ∃ t, exec .mixTick (sticks 1500 2000) = .next t := ⟨by decide, ⟨_, exec_mixTick rfl⟩⟩

/-- Two states that differ in their motors and in a channel the mixer does not read. -/
theorem witness_TickDependsOnlyOnSteerThrottleAndDutyMax :
    let s := sticks 1510 1750
    let s' : State := { s with channels := { s.channels with ch1 := 9 }, motorA := { speed := 9, dir := .forward } }
    s.cfg.admitted = true ∧ s'.cfg.admitted = true ∧ s.channels.ch0 = s'.channels.ch0 ∧
      s.channels.ch2 = s'.channels.ch2 ∧ s.cfg.dutyMax = s'.cfg.dutyMax ∧ s ≠ s' := by decide

theorem witness_TurnSlowsTheInsideMotor :
    (sticks 1510 2000).channels.ch2.toNat ≤ 2000 ∧ (∃ t, exec .mixTick (sticks 1510 2000) = .next t) ∧
      1510 ≤ (sticks 1510 2000).channels.ch0.toNat ∧ 2000 ≤ (sticks 2000 2000).channels.ch0.toNat ∧
      (sticks 1490 2000).channels.ch0.toNat ≤ 1490 ∧ (sticks 1000 2000).channels.ch0.toNat ≤ 1000 :=
  ⟨by decide, ⟨_, exec_mixTick rfl⟩, by decide, by decide, by decide, by decide⟩

theorem witness_TickBeforeTheFirstCommitStopsBothMotors :
    let s : State := { atAccum with motorA := { speed := 9, dir := .forward } }
    s.cfg.admitted = true ∧ s.channels = Channels.zero := by decide

/-- One term of each row, with a context in which its guard holds. -/
theorem witness_DecodeGivesBackWhatWasEncoded :
    ([(commitCtx, Instr.idleLenAccept 4), (commitCtx, .idleDrop 3), (commitCtx, .accumByte 0), (commitCtx, .ckloByte 0),
      (commitCtx, .ckhiCommit 0xFA), ({ commitCtx with cmd := 0x41 }, .ckhiDiscardCmd 0xFA),
      (commitCtx, .ckhiReject 0xFB), ({ commitCtx with len := 12 }, .ckhiDiscardShort 0xFA), (commitCtx, .cmdSetChannels),
      (commitCtx, .cmdUnrecognised 0), (commitCtx, .mixTick), (commitCtx, .mixStraight),
      ({ commitCtx with steer := 1510 }, .mixRight), ({ commitCtx with steer := 1490 }, .mixLeft),
      (commitCtx, .reset)].all fun x => x.2.wf && x.2.guard x.1) = true := by decide

theorem witness_DecodedRowMatchesTheTable : decode commitCtx (.dw10 0x3FA) = .ok (.ckhiCommit 0xFA) := rfl

theorem witness_LengthByteRange :
    State.reset.phase = .idle ∧ 3 < (4 : Byte).toNat ∧ (4 : Byte).toNat ≤ 32 ∧ 3 < (32 : Byte).toNat ∧
      (32 : Byte).toNat ≤ 32 := by decide

theorem witness_PlacedWordIsTheOneThatRuns : atCommit.cfg.admitted = true ∧ Memory.wf atCommit.buf = true := by decide

/-- V-FR-4 after its length byte, with its command byte waiting. -/
def accumWaiting : State := { atAccum with inputs := [byteCycle 0x40] }

/-- The invariants hold in the middle of a frame. -/
theorem atAccum_inv : Inv accumWaiting where
  frame := ⟨by decide, by decide, by decide, by unfold CsumCounts; decide⟩
  buf := ⟨rfl, fun _ _ => rfl⟩
  motorA := ⟨by decide, rfl⟩
  motorB := ⟨by decide, rfl⟩

/-- The invariants hold at the last byte of a frame. -/
theorem atShort_inv : Inv atShort where
  frame := ⟨by decide, by decide, rfl, by unfold CsumCounts; decide⟩
  buf := ⟨by decide, fun a h => if_neg (by omega)⟩
  motorA := ⟨by decide, rfl⟩
  motorB := ⟨by decide, rfl⟩

theorem witness_EveryStepKeepsTheStateInvariant :
    Inv accumWaiting ∧ ∃ t, step accumWaiting = .next t := ⟨atAccum_inv, ⟨_, rfl⟩⟩

theorem witness_ChecksumSubtractionNeverWraps :
    Inv atShort ∧ atShort.phase ≠ .idle ∧ Inv accumWaiting ∧ accumWaiting.phase = .accum :=
  ⟨atShort_inv, by decide, atAccum_inv, rfl⟩

/-- The shortest frame, V-FR-4, and the longest, V-FR-11; the first leaves the channels and the second commits. -/
theorem witness_FrameIsDecidedByItsWireBytes :
    let s := waiting (byteCycles (wireFrame 4 [0x40] 0xBB 0xFF) ++ [])
    let u := waiting (byteCycles (wireFrame 32 longPayload 0xBB 0xE3) ++ [tickCycle])
    s.cfg.admitted = true ∧ Memory.wf s.buf = true ∧ s.phase = .idle ∧ 3 < (4 : Byte).toNat ∧
      [(0x40 : Byte)].length + 3 = (4 : Byte).toNat ∧
      s.inputs = byteCycles (wireFrame 4 [0x40] 0xBB 0xFF) ++ [] ∧
      u.cfg.admitted = true ∧ Memory.wf u.buf = true ∧ u.phase = .idle ∧ (32 : Byte).toNat ≤ 32 ∧
      longPayload.length + 3 = (32 : Byte).toNat ∧ wireValid 32 longPayload 0xBB 0xE3 = true ∧
      longPayload.head? = some 0x40 ∧ u.inputs = byteCycles (wireFrame 32 longPayload 0xBB 0xE3) ++ [tickCycle] := by
  decide

theorem witness_SixChannelFrameRoundTrip :
    let s := waiting (byteCycles (ch6Frame someChannels) ++ [tickCycle])
    s.cfg.admitted = true ∧ Memory.wf s.buf = true ∧ s.phase = .idle ∧
      s.inputs = byteCycles (ch6Frame someChannels) ++ [tickCycle] := ⟨rfl, rfl, rfl, rfl⟩

/-- V-FR-4 with its payload byte changed, and with its checksum high byte changed. -/
theorem witness_SingleChangedByteIsAlwaysDetected :
    let s := waiting (byteCycles (wireFrame 4 [0x41] 0xBB 0xFF))
    s.cfg.admitted = true ∧ Memory.wf s.buf = true ∧ s.phase = .idle ∧ wireValid 4 [0x40] 0xBB 0xFF = true ∧
      s.inputs = byteCycles (wireFrame 4 [0x41] 0xBB 0xFF) ++ [] ∧
      OneByteChanged ([0x40] ++ [0xBB, 0xFF]) ([0x41] ++ [0xBB, 0xFF]) ∧
      OneByteChanged ([0x40] ++ [0xBB, 0xFF]) ([0x40] ++ [0xBB, 0xFE]) :=
  ⟨rfl, rfl, rfl, rfl, rfl, ⟨[], [0xBB, 0xFF], 0x40, 0x41, rfl, rfl, by decide⟩,
    ⟨[0x40, 0xBB], [], 0xFF, 0xFE, rfl, rfl, by decide⟩⟩

theorem witness_SameFrameTwiceGivesTheSameChannels :
    let f := byteCycles (wireFrame 32 longPayload 0xBB 0xE3)
    let s := waiting (f ++ (f ++ [tickCycle]))
    s.cfg.admitted = true ∧ Memory.wf s.buf = true ∧ s.phase = .idle ∧ 3 < (32 : Byte).toNat ∧
      longPayload.length + 3 = (32 : Byte).toNat ∧ s.inputs = f ++ (f ++ [tickCycle]) :=
  ⟨rfl, rfl, rfl, by decide, rfl, rfl⟩

/-- Both ends of the range: 3 more bytes, and 31. -/
theorem witness_LengthByteHoldsTheDecoderExactly :
    (waiting (byteCycles (4 :: [1, 2, 3]) ++ [])).phase = .idle ∧ [(1 : Byte), 2, 3].length + 1 = (4 : Byte).toNat ∧
      (List.replicate 31 (9 : Byte)).length + 1 = (32 : Byte).toNat ∧
      (waiting (byteCycles (32 :: List.replicate 31 9) ++ [])).inputs = byteCycles (32 :: List.replicate 31 9) ++ [] ∧
      (1 ≤ 31 ∧ 31 < (32 : Byte).toNat) := by decide

/-- A tick, and a byte in each phase. -/
theorem witness_PhaseAdvancesAlongItsChain :
    (∃ t, step (waiting [tickCycle]) = .next t) ∧ tickCycle.rst = false ∧ tickCycle.tick = true ∧
      (∃ t, step (waiting [byteCycle 4]) = .next t) ∧ (byteCycle 4).tick = false ∧ (byteCycle 4).inValid = true ∧
      (∃ t, step { atAccum with inputs := [byteCycle 4] } = .next t) ∧
      (∃ t, step { atAccum with phase := .ckLo, inputs := [byteCycle 4] } = .next t) ∧
      ∃ t, step { atShort with inputs := [byteCycle 4] } = .next t := by
  refine ⟨(next_of_holds (p := fun _ => true) ?_).imp fun _ h => h.1, by decide, by decide,
    (next_of_holds (p := fun _ => true) ?_).imp fun _ h => h.1, by decide, by decide,
    (next_of_holds (p := fun _ => true) ?_).imp fun _ h => h.1,
    (next_of_holds (p := fun _ => true) ?_).imp fun _ h => h.1,
    (next_of_holds (p := fun _ => true) ?_).imp fun _ h => h.1⟩ <;> decide

/-- A commit changes the channels, and so does a reset. -/
theorem witness_OnlyACommitWritesTheChannels :
    (∃ t, step { atCommit with inputs := [byteCycle 0xFA] } = .next t ∧ (t.channels != atCommit.channels) = true) ∧
      ∃ t, step { sticks 1500 1500 with inputs := [resetCycle] } = .next t ∧
        (t.channels != (sticks 1500 1500).channels) = true :=
  ⟨next_of_holds (by decide), next_of_holds (by decide)⟩

theorem witness_DecoderAndMixerWriteOnlyTheirOwn :
    (∃ t, step { atCommit with inputs := [byteCycle 0xFA] } = .next t ∧ true = true) ∧ (byteCycle 0xFA).rst = false ∧
      (byteCycle 0xFA).tick = false ∧ (∃ t, step { sticks 1500 1500 with inputs := [tickAndByte 4] } = .next t ∧
        true = true) ∧ (tickAndByte 4).rst = false ∧ (tickAndByte 4).tick = true :=
  ⟨next_of_holds (p := fun _ => true) (by decide), rfl, rfl, next_of_holds (p := fun _ => true) (by decide), rfl, rfl⟩

/-- A payload byte changes its entry, and a reset clears one. -/
theorem witness_OnlyAccumByteWritesTheBuffer :
    Memory.wf atAccum.buf = true ∧ Memory.wf atShort.buf = true ∧ resetCycle.rst = true ∧
      ({ atShort with inputs := [resetCycle] } : State).inputs = resetCycle :: [] ∧
      (∃ t, step { atAccum with inputs := [byteCycle 0x40] } = .next t ∧
        (Memory.read t.buf 0 != Memory.read atAccum.buf 0) = true) ∧
      ∃ t, step { atShort with inputs := [resetCycle] } = .next t ∧
        (Memory.read t.buf 0 != Memory.read atShort.buf 0) = true :=
  ⟨by decide, by decide, rfl, rfl, next_of_holds (by decide), next_of_holds (by decide)⟩

/-- A commit, a reset and a discard. -/
theorem witness_ChannelOutputsAreNeverTorn :
    (∃ t, step { atCommit with inputs := [byteCycle 0xFA] } = .next t ∧
        (t.channels != atCommit.channels && t.channels == decode6 atCommit.buf) = true) ∧
      (∃ t, step { sticks 1500 1500 with inputs := [resetCycle] } = .next t ∧
        (t.channels != (sticks 1500 1500).channels && t.channels == Channels.zero) = true) ∧
      ∃ t, step { atShort with inputs := [byteCycle 0xFF] } = .next t ∧ (t.channels == atShort.channels) = true :=
  ⟨next_of_holds (by decide), next_of_holds (by decide), next_of_holds (by decide)⟩

/-- The same frame, with a byte and a checksum byte that an earlier frame left. -/
def staleWaiting : State := { accumWaiting with buf := [(3, 0x77)], cklo := 0x55 }

/-- Two states in the same frame whose buffers differ beyond the bytes received, as a reset and a rejected frame leave
them. -/
theorem witness_StaleFrameStateIsNeverObservable :
    Inv accumWaiting ∧ Inv staleWaiting ∧ SameObservable accumWaiting staleWaiting ∧ accumWaiting ≠ staleWaiting ∧
      ∃ t, step accumWaiting = .next t :=
  ⟨atAccum_inv,
    { frame := ⟨by decide, by decide, by decide, by unfold CsumCounts; decide⟩
      buf := ⟨by decide, fun a h => if_neg (by omega)⟩
      motorA := ⟨by decide, rfl⟩
      motorB := ⟨by decide, rfl⟩ },
    { phase := rfl
      channels := rfl
      motorA := rfl
      motorB := rfl
      cfg := rfl
      inputs := rfl
      frame := fun _ => ⟨rfl, rfl, rfl, fun a h => absurd h (Nat.not_lt_zero a)⟩
      held := fun h => by cases h },
    by decide, ⟨_, rfl⟩⟩

/-- A tick that is still to come after the first step, and one that is taken. -/
theorem witness_SilentLinkHoldsChannelsAndMotors :
    let s : State := { sticks 1500 1750 with inputs := [PortIn.mk false false false 0, tickCycle] }
    (∀ p ∈ s.inputs, p.rst = false ∧ p.inValid = false) ∧ (∃ u, exec .mixTick s = .next u) ∧
      (∀ p ∈ s.inputs.take 1, p.tick = false) ∧ ∃ p ∈ s.inputs.take 2, p.tick = true :=
  ⟨by decide, ⟨_, exec_mixTick rfl⟩, by decide, by decide⟩

end Sys2Proof.Tests
end

section
/-! What a step does on a given cycle, and the obligations of 10_state.md on the configuration, the phase and the
parts of the state that each event may write (R20, R29, R31). -/

namespace Sys2Proof.Machine

/-! ### The effect of the cycle at the head of the list -/

/-- A cycle with a tick drives both motors and is left with its byte, if it has one. -/
theorem driveForward_of_step_tick {s t : State} {p : PortIn} {rest : List PortIn} (hi : s.inputs = p :: rest)
    (hr : p.rst = false) (ht : p.tick = true) (h : step s = .next t) :
    ∃ v : Speeds, t = driveForward v (withInputs (afterTick p rest) s) := by
  rw [step_tick (step_cases h).1 hi hr ht] at h
  obtain ⟨-, v, -, -, hv⟩ := exec_mixTick_cases h
  exact ⟨v, hv⟩

/-- A cycle with only a byte has one of the byte's effects. -/
theorem byteEffect_of_step_byte {s t : State} {p : PortIn} {rest : List PortIn} (hi : s.inputs = p :: rest)
    (hr : p.rst = false) (ht : p.tick = false) (hv : p.inValid = true) (h : step s = .next t) :
    ByteEffect p.inByte (withInputs rest s) t := by
  obtain ⟨u, hu, he⟩ := exec_decodeByte p.inByte (withInputs rest s)
  have hstep : step s = .next u := (step_byte (step_cases h).1 hi hr ht hv).trans hu
  rw [hstep] at h
  injection h with h
  exact h ▸ he

/-- A cycle that presents nothing is only taken. -/
theorem eq_withInputs_of_step_idle {s t : State} {p : PortIn} {rest : List PortIn} (hi : s.inputs = p :: rest)
    (hr : p.rst = false) (ht : p.tick = false) (hv : p.inValid = false) (h : step s = .next t) :
    t = withInputs rest s := by
  rw [step_idle (step_cases h).1 hi hr ht hv] at h
  injection h with h
  exact h.symm

/-! ### The configuration (R29) -/

theorem ByteEffect.cfg_eq {b : Byte} {s t : State} (h : ByteEffect b s t) : t.cfg = s.cfg := by
  cases h <;> rfl

theorem StepEffect.cfg_eq {s t : State} (h : StepEffect s t) : t.cfg = s.cfg := by
  cases h with
  | hold | reset | tick => rfl
  | byte p rest hi hr ht hv _ he => exact he.cfg_eq

/-- The shape of the four mixer rows: a write of both motors, in an admitted configuration only. -/
theorem eq_driveForward_of_ifAdmitted {s t : State} {v : Speeds}
    (h : ifAdmitted s (.next (driveForward v s)) = .next t) : t = driveForward v s := by
  have hk := (ifAdmitted_next h).2
  injection hk with hk
  exact hk.symm

/-- R203: no row writes the configuration, whatever the state it is run in. -/
theorem exec_cfg {i : Instr} {s t : State} (h : exec i s = .next t) : t.cfg = s.cfg := by
  cases i with
  | idleLenAccept | idleDrop | accumByte | ckloByte | ckhiCommit | ckhiDiscardCmd | ckhiReject | ckhiDiscardShort
  | cmdUnrecognised | reset =>
    injection h with h
    subst h
    rfl
  | cmdSetChannels =>
    rw [exec_cmdSetChannels] at h
    injection h with h
    subst h
    split <;> rfl
  | mixTick | mixStraight | mixRight | mixLeft =>
    rw [eq_driveForward_of_ifAdmitted h, driveForward_cfg]

/-- Settles O8: over the effects of a step, and over the rows. -/
theorem noEventWritesTheConfiguration : Obligations.NoEventWritesTheConfiguration :=
  ⟨fun _ _ h => (step_cases h).2.cfg_eq, fun _ _ _ h => exec_cfg h⟩

/-! ### The phase (R31) -/

/-- After the store the frame goes on, or its payload is complete. -/
theorem storePayload_phase_cases {b : Byte} {s : State} (hp : s.phase = .accum) :
    (storePayload b s).phase = .accum ∨ (storePayload b s).phase = .ckLo := by
  rw [storePayload_phase, hp]
  split <;> simp

theorem ByteEffect.phase_chain {b : Byte} {s t : State} (h : ByteEffect b s t) :
    (s.phase = .idle → t.phase = .idle ∨ t.phase = .accum) ∧ (s.phase = .accum → t.phase = .accum ∨ t.phase = .ckLo) ∧
      (s.phase = .ckLo → t.phase = .ckHi) ∧ (s.phase = .ckHi → t.phase = .idle) := by
  cases h with
  | accept hp | drop hp | hold hp | commit hp | discard hp => simp [hp]
  | store hp =>
    have hnext := storePayload_phase_cases (b := b) hp
    simp only [hp, reduceCtorEq, false_implies, and_true, true_and]
    exact fun _ => hnext

/-- Settles O43: a tick writes no phase; the byte's effects follow the chain. -/
theorem phaseAdvancesAlongItsChain : Obligations.PhaseAdvancesAlongItsChain := by
  intro s t p rest hi hr h
  constructor
  · intro ht
    obtain ⟨v, rfl⟩ := driveForward_of_step_tick hi hr ht h
    simp
  · intro ht hv
    exact (byteEffect_of_step_byte hi hr ht hv h).phase_chain

/-! ### What the decoder and the mixer write (R20) -/

theorem ByteEffect.motorsKept {b : Byte} {s t : State} (h : ByteEffect b s t) : MotorsKept s t := by
  cases h <;> exact ⟨rfl, rfl⟩

theorem tick_decoderKept (v : Speeds) (ps : List PortIn) (s : State) :
    DecoderKept s (driveForward v (withInputs ps s)) where
  phase := rfl
  regs := ⟨rfl, rfl, rfl, rfl⟩
  buf := fun _ => rfl

/-- Settles O45: a byte's effect keeps the motors, and a tick's keeps the decoder and the channels. -/
theorem decoderAndMixerWriteOnlyTheirOwn : Obligations.DecoderAndMixerWriteOnlyTheirOwn := by
  intro s t p rest hi hr h
  constructor
  · intro ht
    cases hv : p.inValid with
    | true =>
      obtain ⟨hA, hB⟩ := (byteEffect_of_step_byte hi hr ht hv h).motorsKept
      exact ⟨hA, hB⟩
    | false =>
      rw [eq_withInputs_of_step_idle hi hr ht hv h]
      exact ⟨rfl, rfl⟩
  · intro ht
    obtain ⟨v, rfl⟩ := driveForward_of_step_tick hi hr ht h
    exact ⟨tick_decoderKept v (afterTick p rest) s, rfl⟩

end Sys2Proof.Machine
end

section
/-! The invariants of 10_state.md R32: each operation keeps them, so every step does. -/

namespace Sys2Proof.Machine

/-! ### What the frame invariant says, phase by phase -/

theorem frameInv_of_idle {s : State} (hp : s.phase = .idle) : FrameInv s := by
  simp [FrameInv, hp]

theorem frameInv_accum_iff {s : State} (hp : s.phase = .accum) :
    FrameInv s ↔ 1 ≤ s.len.toNat ∧ s.len.toNat ≤ 29 ∧ s.ptr.toNat < s.len.toNat ∧ CsumCounts s s.ptr.toNat := by
  simp [FrameInv, hp]

/-- The two checksum phases have one invariant: the whole payload is stored and counted. -/
theorem frameInv_checksum_iff {s : State} (hp : s.phase = .ckLo ∨ s.phase = .ckHi) :
    FrameInv s ↔ 1 ≤ s.len.toNat ∧ s.len.toNat ≤ 29 ∧ s.ptr = s.len ∧ CsumCounts s s.len.toNat := by
  rcases hp with hp | hp <;> simp [FrameInv, hp]

/-! ### The frame registers, operation by operation -/

/-- R101: an accepted length byte declares 1 to 29 payload bytes. -/
theorem acceptLength_len_toNat {b : Byte} (hb : 3 < b.toNat ∧ b.toNat ≤ 32) (s : State) :
    (acceptLength b s).len.toNat = b.toNat - 3 := by
  rw [acceptLength_len, BitVec.toNat_setWidth, BitVec.toNat_sub]
  simp
  omega

/-- R101: the checksum starts with the length byte subtracted. -/
theorem acceptLength_csumCounts {b : Byte} (hb : 3 < b.toNat ∧ b.toNat ≤ 32) (s : State) :
    CsumCounts (acceptLength b s) 0 := by
  have hcsum : (acceptLength b s).csum.toNat = 0xFFFF - b.toNat := by
    rw [acceptLength_csum, BitVec.toNat_sub, BitVec.toNat_setWidth]
    simp
    omega
  rw [CsumCounts, hcsum, acceptLength_len_toNat hb, bufSum]
  omega

theorem acceptLength_frameInv {b : Byte} (hb : 3 < b.toNat ∧ b.toNat ≤ 32) (s : State) :
    FrameInv (acceptLength b s) := by
  have hlen := acceptLength_len_toNat hb s
  rw [frameInv_accum_iff rfl]
  refine ⟨by omega, by omega, ?_, acceptLength_csumCounts hb s⟩
  rw [hlen, acceptLength_ptr]
  simp
  omega

/-- R103, R115: the stored byte moves from the checksum to the sum; 32 bytes of at most 255 cannot make it wrap. -/
theorem storePayload_csumCounts {s : State} (hw : Memory.wf s.buf = true) (hc : CsumCounts s s.ptr.toNat) (b : Byte) :
    CsumCounts (storePayload b s) (s.ptr.toNat + 1) := by
  have hsum : bufSum (storePayload b s).buf (s.ptr.toNat + 1) = bufSum s.buf s.ptr.toNat + b.toNat :=
    bufSum_write hw s.ptr b
  have hle := bufSum_le s.buf s.ptr.toNat
  have hcsum : (storePayload b s).csum.toNat = s.csum.toNat - b.toNat := by
    unfold CsumCounts at hc
    rw [storePayload_csum, BitVec.toNat_sub, BitVec.toNat_setWidth]
    omega
  unfold CsumCounts at hc ⊢
  rw [hsum, hcsum, storePayload_len]
  omega

/-- R116: below the declared length the pointer does not wrap. -/
theorem storePayload_ptr_toNat {s : State} (hlt : s.ptr.toNat < s.len.toNat) (b : Byte) :
    (storePayload b s).ptr.toNat = s.ptr.toNat + 1 := by
  rw [storePayload_ptr, BitVec.toNat_add]
  simp
  omega

theorem storePayload_frameInv {s : State} (hw : Memory.wf s.buf = true) (hp : s.phase = .accum) (h : FrameInv s)
    (b : Byte) : FrameInv (storePayload b s) := by
  obtain ⟨hpos, hmax, hlt, hc⟩ := (frameInv_accum_iff hp).1 h
  have hptr := storePayload_ptr_toNat hlt b
  have hc' := storePayload_csumCounts hw hc b
  by_cases hlast : s.ptr.toNat + 1 = s.len.toNat
  · have hphase : (storePayload b s).phase = .ckLo := by simp [lastPayloadByte, hlast]
    rw [frameInv_checksum_iff (.inl hphase)]
    exact ⟨hpos, hmax, BitVec.eq_of_toNat_eq (hptr.trans hlast), hlast ▸ hc'⟩
  · have hphase : (storePayload b s).phase = .accum := by simp [lastPayloadByte, hlast, hp]
    rw [frameInv_accum_iff hphase, hptr, storePayload_len]
    exact ⟨hpos, hmax, by omega, hc'⟩

theorem holdLowByte_frameInv {s : State} (hp : s.phase = .ckLo) (h : FrameInv s) (b : Byte) :
    FrameInv (holdLowByte b s) :=
  (frameInv_checksum_iff (.inr rfl)).2 ((frameInv_checksum_iff (.inl hp)).1 h)

/-- R57: inside a frame the store is below entry 29. -/
theorem storePayload_bufInv {s : State} (hptr : s.ptr.toNat < 29) (h : BufInv s) (b : Byte) :
    BufInv (storePayload b s) := by
  obtain ⟨hw, hread⟩ := h
  refine ⟨bufWrite_wf hw s.ptr b, fun a ha => ?_⟩
  rw [storePayload_buf, bufWrite_read hw, if_neg (by omega)]
  exact hread a ha

/-! ### The whole invariant -/

theorem withInputs_inv {s : State} (h : Inv s) (ps : List PortIn) : Inv (withInputs ps s) :=
  ⟨h.frame, h.buf, h.motorA, h.motorB⟩

theorem ByteEffect.inv {b : Byte} {s t : State} (he : ByteEffect b s t) (h : Inv s) : Inv t := by
  obtain ⟨hframe, hbuf, hA, hB⟩ := h
  cases he with
  | accept hp hb => exact ⟨acceptLength_frameInv hb s, hbuf, hA, hB⟩
  | drop => exact ⟨hframe, hbuf, hA, hB⟩
  | store hp =>
    obtain ⟨-, hmax, hlt, -⟩ := (frameInv_accum_iff hp).1 hframe
    exact ⟨storePayload_frameInv hbuf.1 hp hframe b, storePayload_bufInv (by omega) hbuf b, hA, hB⟩
  | hold hp => exact ⟨holdLowByte_frameInv hp hframe b, hbuf, hA, hB⟩
  | commit | discard => exact ⟨frameInv_of_idle rfl, hbuf, hA, hB⟩

theorem resetRegisters_inv (s : State) : Inv (resetRegisters s) where
  frame := frameInv_of_idle rfl
  buf := ⟨rfl, fun _ _ => rfl⟩
  motorA := ⟨Nat.zero_le _, rfl⟩
  motorB := ⟨Nat.zero_le _, rfl⟩

theorem driveForward_inv {s : State} (h : Inv s) {v : Speeds} (hva : v.a.toNat ≤ s.cfg.dutyMax.toNat)
    (hvb : v.b.toNat ≤ s.cfg.dutyMax.toNat) : Inv (driveForward v s) :=
  ⟨h.frame, h.buf, ⟨hva, rfl⟩, ⟨hvb, rfl⟩⟩

/-- R32 over one step, event by event. -/
theorem step_inv {s t : State} (h : Inv s) (ht : step s = .next t) : Inv t := by
  cases (step_cases ht).2 with
  | hold rest => exact withInputs_inv h rest
  | reset p rest => exact resetRegisters_inv _
  | tick p rest hi hr htick v hva hvb => exact driveForward_inv (withInputs_inv h _) hva hvb
  | byte p rest hi hr htick hv _ he => exact he.inv (withInputs_inv h rest)

/-- Settles O35: every effect of a step keeps each part of the invariant. -/
theorem everyStepKeepsTheStateInvariant : Obligations.EveryStepKeepsTheStateInvariant :=
  fun _ _ => step_inv

end Sys2Proof.Machine
end

section
/-! Noninterference (10_state.md R33): the bytes that earlier frames left in the buffer, and the frame registers
in IDLE, are never observable. Two states alike but for those are stepped side by side. -/

namespace Sys2Proof.Machine

/-! ### A byte's effect is what the step runs -/

/-- The converse of `exec_decodeByte`: a state that meets a byte effect's conditions runs that effect. -/
theorem ByteEffect.exec_eq {b : Byte} {s t : State} (h : ByteEffect b s t) :
    exec (decodeByte (decodeCtx s) s.phase b) s = .next t := by
  cases h with
  | accept hp hb => simp [hp, decodeByte, (lenAccepted_iff b).2 hb]
  | drop hp hb => simp [hp, decodeByte, mt (lenAccepted_iff b).1 hb]
  | store hp => simp [hp, decodeByte]
  | hold hp => simp [hp, decodeByte]
  | commit hp hm hc hl =>
    have hmatch : csumMatch (decodeCtx s) b = true := (csumMatch_iff _ b).2 hm
    have hcmd : (decodeCtx s).cmd = 0x40#8 := hc
    have hlong : ¬ frameShort (decodeCtx s) = true := mt (frameShort_iff _).1 (Nat.not_lt.2 hl)
    simp [hp, decodeByte, hmatch, hcmd, hlong]
  | discard hp hn =>
    obtain ⟨u, hu, he⟩ := exec_decodeByte b s
    cases he with
    | discard => exact hu
    | commit _ hm hc hl => exact absurd ⟨hm, hc, hl⟩ hn
    | accept hq | drop hq | store hq | hold hq => simp [hp] at hq

/-- R195: with no event the state is held and the cycle, if any, is taken. -/
theorem step_of_fetchWord_none {s : State} (ha : s.cfg.admitted = true) (hf : fetchWord s = none) :
    step s = .next (withInputs s.inputs.tail s) := by
  simp [step, ha, hf]

/-! ### Each operation keeps two states alike -/

namespace SameObservable

variable {s s' : State}

theorem withInputs_congr (h : SameObservable s s') (ps : List PortIn) :
    SameObservable (withInputs ps s) (withInputs ps s') :=
  ⟨h.phase, h.channels, h.motorA, h.motorB, h.cfg, rfl, h.frame, h.held⟩

theorem driveForward_congr (h : SameObservable s s') (v : Speeds) :
    SameObservable (driveForward v s) (driveForward v s') :=
  ⟨h.phase, h.channels, rfl, rfl, h.cfg, h.inputs, h.frame, h.held⟩

theorem publish_congr (h : SameObservable s s') (c : Channels) : SameObservable (publish c s) (publish c s') :=
  ⟨h.phase, rfl, h.motorA, h.motorB, h.cfg, h.inputs, h.frame, h.held⟩

theorem returnToIdle_congr (h : SameObservable s s') : SameObservable (returnToIdle s) (returnToIdle s') :=
  ⟨rfl, h.channels, h.motorA, h.motorB, h.cfg, h.inputs, fun hn => absurd rfl hn, fun hk => nomatch hk⟩

theorem resetRegisters_congr (h : SameObservable s s') : SameObservable (resetRegisters s) (resetRegisters s') :=
  ⟨rfl, rfl, rfl, rfl, h.cfg, h.inputs, fun hn => absurd rfl hn, fun hk => nomatch hk⟩

/-- R101: a frame begins with no byte received, so no stale buffer byte is left to compare. -/
theorem acceptLength_congr (h : SameObservable s s') (b : Byte) :
    SameObservable (acceptLength b s) (acceptLength b s') :=
  ⟨rfl, h.channels, h.motorA, h.motorB, h.cfg, h.inputs,
    fun _ => ⟨rfl, rfl, rfl, fun a ha => absurd ha (Nat.not_lt_zero a)⟩, fun hk => nomatch hk⟩

/-- R103: the entry that becomes readable is the one just written. -/
theorem storePayload_congr (h : SameObservable s s') (hw : Memory.wf s.buf = true) (hw' : Memory.wf s'.buf = true)
    (hp : s.phase = .accum) (b : Byte) : SameObservable (storePayload b s) (storePayload b s') := by
  obtain ⟨hlen, hptr, hcsum, hread⟩ := h.frame (by simp [hp])
  refine ⟨?phase, h.channels, h.motorA, h.motorB, h.cfg, h.inputs, fun _ => ⟨hlen, ?ptr, ?csum, ?read⟩, ?held⟩
  case phase => simp [lastPayloadByte, hlen, hptr, h.phase]
  case ptr => simp [hptr]
  case csum => simp [hcsum]
  case read =>
    intro a ha
    have hle : (s.ptr + 1).toNat ≤ s.ptr.toNat + 1 := by
      rw [BitVec.toNat_add]
      exact Nat.mod_le _ _
    rw [storePayload_ptr] at ha
    rw [storePayload_buf, storePayload_buf, bufWrite_read hw, bufWrite_read hw', ← hptr]
    split
    · rfl
    · exact hread a (by omega)
  case held =>
    intro hk
    rcases storePayload_phase_cases (b := b) hp with hnext | hnext <;> exact nomatch hnext.symm.trans hk

/-- R104: the low byte becomes readable as it is written. -/
theorem holdLowByte_congr (h : SameObservable s s') (hp : s.phase = .ckLo) (b : Byte) :
    SameObservable (holdLowByte b s) (holdLowByte b s') :=
  ⟨rfl, h.channels, h.motorA, h.motorB, h.cfg, h.inputs, fun _ => h.frame (by simp [hp]), fun _ => rfl⟩

/-! ### What the last byte of a frame reads -/

/-- In CK_HI the whole declared payload is comparable. -/
theorem read_eq_of_ckHi (h : SameObservable s s') (hs : Inv s) (hp : s.phase = .ckHi) {a : Nat}
    (ha : a < s.len.toNat) : Memory.read s.buf a = Memory.read s'.buf a := by
  obtain ⟨-, -, hptr, -⟩ := (frameInv_checksum_iff (.inr hp)).1 hs.frame
  obtain ⟨-, -, -, hread⟩ := h.frame (by simp [hp])
  exact hread a (hptr ▸ ha)

/-- The command byte is in every frame. -/
theorem command_eq (h : SameObservable s s') (hs : Inv s) (hp : s.phase = .ckHi) :
    bufRead s.buf 0 = bufRead s'.buf 0 := by
  obtain ⟨hpos, -⟩ := (frameInv_checksum_iff (.inr hp)).1 hs.frame
  exact h.read_eq_of_ckHi hs hp hpos

/-- R108 (decision D6): a frame long enough to commit carries all six fields, so none is read from stale bytes. -/
theorem channelField_eq (h : SameObservable s s') (hs : Inv s) (hp : s.phase = .ckHi) (hl : 13 ≤ s.len.toNat)
    (i : Fin numCh) : channelField s.buf i = channelField s'.buf i := by
  have hi : i.val < 6 := i.isLt
  have hlane (k : Nat) (hk : k ≤ 12) :
      bufRead s.buf (BitVec.ofNat 5 k) = bufRead s'.buf (BitVec.ofNat 5 k) := by
    apply h.read_eq_of_ckHi hs hp
    rw [BitVec.toNat_ofNat]
    omega
  rw [channelField, channelField, hlane _ (by omega), hlane _ (by omega)]

theorem decode6_eq (h : SameObservable s s') (hs : Inv s) (hp : s.phase = .ckHi) (hl : 13 ≤ s.len.toNat) :
    decode6 s.buf = decode6 s'.buf := by
  simp only [decode6, h.channelField_eq hs hp hl]

/-! ### Events and steps side by side -/

/-- A byte has the same effect on both states: the choice among the CK_HI rows reads nothing stale. -/
theorem byteEffect_congr {b : Byte} {t : State} (h : SameObservable s s') (hs : Inv s) (hs' : Inv s')
    (he : ByteEffect b s t) : ∃ t', ByteEffect b s' t' ∧ SameObservable t t' := by
  have hphase {p : Phase} (hp : s.phase = p) : s'.phase = p := h.phase ▸ hp
  cases he with
  | accept hp hb => exact ⟨_, .accept (hphase hp) hb, h.acceptLength_congr b⟩
  | drop hp hb => exact ⟨_, .drop (hphase hp) hb, h⟩
  | store hp => exact ⟨_, .store (hphase hp), h.storePayload_congr hs.buf.1 hs'.buf.1 hp b⟩
  | hold hp => exact ⟨_, .hold (hphase hp), h.holdLowByte_congr hp b⟩
  | commit hp hm hc hl =>
    obtain ⟨hlen, -, hcsum, -⟩ := h.frame (by simp [hp])
    rw [h.held hp, hcsum] at hm
    rw [h.command_eq hs hp] at hc
    rw [h.decode6_eq hs hp hl]
    exact ⟨_, .commit (hphase hp) hm hc (hlen ▸ hl), (h.publish_congr _).returnToIdle_congr⟩
  | discard hp hn =>
    obtain ⟨hlen, -, hcsum, -⟩ := h.frame (by simp [hp])
    rw [h.held hp, hcsum, h.command_eq hs hp, hlen] at hn
    exact ⟨_, .discard (hphase hp) hn, h.returnToIdle_congr⟩

/-- A tick reads only channels and configuration, so it drives both states' motors alike. -/
theorem mixTick_congr {t : State} (h : SameObservable s s') (ht : exec .mixTick s = .next t) :
    ∃ t', exec .mixTick s' = .next t' ∧ SameObservable t t' := by
  have ha := (exec_mixTick_cases ht).1
  rw [exec_mixTick ha] at ht
  injection ht with ht
  subst ht
  rw [exec_mixTick (h.cfg ▸ ha), ← h.channels, ← h.cfg]
  exact ⟨_, rfl, h.driveForward_congr _⟩

theorem fetchWord_eq (h : SameObservable s s') : fetchWord s = fetchWord s' := by
  simp only [fetchWord, h.phase, h.inputs]

/-- R33 over one step: both states take the same event. -/
theorem step_congr {t : State} (h : SameObservable s s') (hs : Inv s) (hs' : Inv s') (ht : step s = .next t) :
    ∃ t', step s' = .next t' ∧ SameObservable t t' := by
  obtain ⟨ha, he⟩ := step_cases ht
  have ha' : s'.cfg.admitted = true := h.cfg ▸ ha
  cases he with
  | hold rest hi hn =>
    have hf : fetchWord s' = none := by
      rw [← h.fetchWord_eq]
      rcases hn with hnil | ⟨p, hp, hr, htick, hv⟩
      · exact fetchWord_nil hnil
      · exact fetchWord_idle hp hr htick hv
    exact ⟨_, step_of_fetchWord_none ha' hf, by rw [← h.inputs, hi]; exact h.withInputs_congr rest⟩
  | reset p rest hi hr => exact ⟨_, step_reset ha' (h.inputs ▸ hi) hr, (h.withInputs_congr rest).resetRegisters_congr⟩
  | tick p rest hi hr htick v =>
    rw [step_tick ha hi hr htick] at ht
    rw [step_tick ha' (h.inputs ▸ hi) hr htick]
    exact (h.withInputs_congr _).mixTick_congr ht
  | byte p rest hi hr htick hv _ he =>
    obtain ⟨t', he', hsame⟩ :=
      (h.withInputs_congr rest).byteEffect_congr (withInputs_inv hs rest) (withInputs_inv hs' rest) he
    exact ⟨t', (step_byte ha' (h.inputs ▸ hi) hr htick hv).trans he'.exec_eq, hsame⟩

/-- R82: the ports show the channels and the motors only. -/
theorem portOut_eq (h : SameObservable s s') : portOut s = portOut s' := by
  simp only [portOut, h.channels, h.motorA, h.motorB]

end SameObservable

/-- Settles O48: the outputs read no register that may differ, and every event keeps two such states alike. -/
theorem staleFrameStateIsNeverObservable : Obligations.StaleFrameStateIsNeverObservable :=
  fun _ _ hs hs' h => ⟨h.portOut_eq, fun _ ht => h.step_congr hs hs' ht⟩

end Sys2Proof.Machine
end

section
/-! The memory model of 20_memory.md: a step as the row of its fetched word (R60), and what a step may write in the
buffer (R55) and in the channels (R58). -/

namespace Sys2Proof.Machine

/-! ### A step and its fetched word (R60) -/

theorem step_of_decode {s : State} {w : TableWord} {rest : List PortIn} {i : Instr} (ha : s.cfg.admitted = true)
    (hf : fetchWord s = some (w, rest)) (hd : decode (decodeCtx s) w = .ok i) : step s = exec i (withInputs rest s) := by
  simp only [step, ifAdmitted_of_admitted ha, hf, hd]

/-- Settles O1: the decoded word is the row that `step` dispatches to. -/
theorem stepRunsDecodedInstruction : Obligations.StepRunsDecodedInstruction :=
  fun _ _ _ _ ha hf hd _ => step_of_decode ha hf hd

/-! ### The buffer (R55) -/

theorem resetRegisters_read (s : State) (a : Nat) : Memory.read (resetRegisters s).buf a = 0 := rfl

/-- A reset cycle answers the reset registers. -/
theorem eq_resetRegisters_of_step_reset {s t : State} {p : PortIn} {rest : List PortIn} (hi : s.inputs = p :: rest)
    (hr : p.rst = true) (h : step s = .next t) : t = resetRegisters (withInputs rest s) := by
  rw [step_reset (step_cases h).1 hi hr] at h
  injection h with h
  exact h.symm

/-- A byte either leaves the buffer alone or is the payload byte stored at `ptr`. -/
theorem ByteEffect.buf_cases {b : Byte} {s t : State} (h : ByteEffect b s t) :
    t.buf = s.buf ∨ s.phase = .accum ∧ t.buf = bufWrite s.buf s.ptr b := by
  cases h with
  | store hp => exact .inr ⟨hp, rfl⟩
  | accept | drop | hold | commit | discard => exact .inl rfl

/-- The entry that a byte changes is the one at `ptr`, in ACCUM. -/
theorem ByteEffect.read_changed {b : Byte} {s t : State} {a : Nat} (h : ByteEffect b s t) (hw : Memory.wf s.buf = true)
    (hne : Memory.read t.buf a ≠ Memory.read s.buf a) :
    s.phase = .accum ∧ a = s.ptr.toNat ∧ Memory.read t.buf a = b := by
  rcases h.buf_cases with hbuf | ⟨hp, hbuf⟩
  · exact absurd (congrArg (Memory.read · a) hbuf) hne
  · rw [hbuf, bufWrite_read hw] at hne ⊢
    by_cases ha : a = s.ptr.toNat
    · exact ⟨hp, ha, if_pos ha⟩
    · exact absurd (if_neg ha) hne

/-- Settles O46: of the effects of a step only a reset and a stored payload byte write the buffer. -/
theorem onlyAccumByteWritesTheBuffer : Obligations.OnlyAccumByteWritesTheBuffer := by
  constructor
  · intro s t a hw h hne
    cases (step_cases h).2 with
    | hold => exact absurd rfl hne
    | reset p rest hi hr => exact ⟨p, rest, hi, .inl ⟨hr, resetRegisters_read _ a⟩⟩
    | tick => exact absurd rfl hne
    | byte p rest hi hr ht hv _ he =>
      obtain ⟨hp, ha, hread⟩ := he.read_changed hw hne
      exact ⟨p, rest, hi, .inr ⟨hr, ht, hv, hp, ha, hread⟩⟩
  · intro s t p rest hi hr h a
    rw [eq_resetRegisters_of_step_reset hi hr h]
    exact resetRegisters_read _ a

/-! ### The channels (R58) -/

/-- R117: what a byte must find, to commit. -/
structure CommitsOn (b : Byte) (s : State) : Prop where
  phase : s.phase = .ckHi
  csum : s.cklo.toNat + 256 * b.toNat = s.csum.toNat
  command : Memory.read s.buf 0 = 0x40
  len : 13 ≤ s.len.toNat

/-- A byte writes the channels in one way only, all six by a commit. -/
theorem ByteEffect.channels_cases {b : Byte} {s t : State} (h : ByteEffect b s t) :
    t.channels = s.channels ∨ CommitsOn b s ∧ t.phase = .idle ∧ t.channels = decode6 s.buf := by
  cases h with
  | commit hp hm hc hl => exact .inr ⟨⟨hp, hm, hc, hl⟩, rfl, rfl⟩
  | accept | drop | store | hold | discard => exact .inl rfl

/-- A step writes the channels by a reset or by a commit, and in no other way. -/
theorem step_channels_cases {s t : State} (h : step s = .next t) :
    t.channels = s.channels ∨ ∃ p rest, s.inputs = p :: rest ∧
      ((p.rst = true ∧ t.channels = Channels.zero) ∨
        (p.rst = false ∧ p.tick = false ∧ p.inValid = true ∧ CommitsOn p.inByte s ∧ t.phase = .idle ∧
          t.channels = decode6 s.buf)) := by
  cases (step_cases h).2 with
  | hold => exact .inl rfl
  | reset p rest hi hr => exact .inr ⟨p, rest, hi, .inl ⟨hr, rfl⟩⟩
  | tick => exact .inl rfl
  | byte p rest hi hr ht hv _ he =>
    rcases he.channels_cases with hkept | ⟨⟨hp, hm, hc, hl⟩, hidle, hch⟩
    · exact .inl hkept
    · exact .inr ⟨p, rest, hi, .inr ⟨hr, ht, hv, ⟨hp, hm, hc, hl⟩, hidle, hch⟩⟩

/-- R82: direction bit 0 is forward, and only forward. -/
theorem dirCode_eq_zero_iff (d : Dir) : dirCode d = 0 ↔ d = .forward := by
  cases d <;> decide

/-- Settles O47: the six ports are the channel registers, which a step writes all together or not at all. -/
theorem channelOutputsAreNeverTorn : Obligations.ChannelOutputsAreNeverTorn := by
  intro s t h
  refine ⟨?channels, rfl, rfl, dirCode_eq_zero_iff _, dirCode_eq_zero_iff _⟩
  case channels =>
    rcases step_channels_cases h with hkept | ⟨p, rest, hi, hreset | ⟨hr, ht, hv, ⟨hp, hm, hc, hl⟩, -, hch⟩⟩
    · exact .inl hkept
    · exact .inr ⟨p, rest, hi, .inl hreset⟩
    · exact .inr ⟨p, rest, hi, .inr ⟨hr, ht, hv, hp, hm, hc, hl, hch⟩⟩

end Sys2Proof.Machine
end

section
/-! The silent link (20_memory.md R63, 60_exceptions.md R187): with no byte and no reset a run has a closed form, in which
one tick is as good as many. -/

namespace Sys2Proof.Machine

/-! ### Silent cycles -/

/-- No waiting cycle holds a byte or a reset. -/
def Silent (ps : List PortIn) : Prop := ∀ p ∈ ps, p.rst = false ∧ p.inValid = false

/-- R140: the speeds that a tick writes. -/
def tickSpeeds (s : State) : Speeds :=
  bandSpeeds (steerBand s.channels.ch0) s.cfg.dutyMax s.channels.ch0.toNat s.channels.ch2.toNat

/-- A silent cycle with a tick writes the speeds of the channels as they are, and is then over. -/
theorem step_silent_tick {s : State} {p : PortIn} {rest : List PortIn} (ha : s.cfg.admitted = true)
    (hi : s.inputs = p :: rest) (hr : p.rst = false) (hv : p.inValid = false) (ht : p.tick = true) :
    step s = .next (driveForward (tickSpeeds s) (withInputs rest s)) := by
  have hrest : afterTick p rest = rest := by simp [afterTick, hv]
  rw [step_tick ha hi hr ht, hrest]
  exact exec_mixTick (s := withInputs rest s) ha

/-- Where `n` steps of a silent link end: the cycles are taken, and one tick among them is as good as many. -/
def silentEnd (n : Nat) (s : State) : State :=
  if ∃ p ∈ s.inputs.take n, p.tick = true then driveForward (tickSpeeds s) (withInputs (s.inputs.drop n) s)
  else withInputs (s.inputs.drop n) s

theorem silentEnd_of_tick {n : Nat} {s : State} (h : ∃ p ∈ s.inputs.take n, p.tick = true) :
    silentEnd n s = driveForward (tickSpeeds s) (withInputs (s.inputs.drop n) s) := if_pos h

theorem silentEnd_of_no_tick {n : Nat} {s : State} (h : ¬ ∃ p ∈ s.inputs.take n, p.tick = true) :
    silentEnd n s = withInputs (s.inputs.drop n) s := if_neg h

theorem silentEnd_nil {s : State} (hi : s.inputs = []) (n : Nat) : silentEnd n s = withInputs [] s := by
  rw [silentEnd_of_no_tick (by simp [hi]), hi, List.drop_nil]

/-- A cycle that presents nothing makes no difference to what follows. -/
theorem silentEnd_succ_idle {s : State} {p : PortIn} {rest : List PortIn} (hi : s.inputs = p :: rest)
    (ht : p.tick = false) (n : Nat) : silentEnd (n + 1) s = silentEnd n (withInputs rest s) := by
  by_cases hlater : ∃ q ∈ rest.take n, q.tick = true
  · rw [silentEnd_of_tick (s := withInputs rest s) hlater, silentEnd_of_tick (by simpa [hi, ht] using hlater), hi]
    rfl
  · rw [silentEnd_of_no_tick (s := withInputs rest s) hlater,
      silentEnd_of_no_tick (by simpa [hi, ht] using hlater), hi]
    rfl

/-- R187: a tick writes what every later tick writes again. -/
theorem silentEnd_succ_tick {s : State} {p : PortIn} {rest : List PortIn} (hi : s.inputs = p :: rest)
    (ht : p.tick = true) (n : Nat) :
    silentEnd (n + 1) s = silentEnd n (driveForward (tickSpeeds s) (withInputs rest s)) := by
  rw [silentEnd_of_tick ⟨p, by simp [hi], ht⟩, hi, List.drop_succ_cons]
  by_cases hlater : ∃ q ∈ rest.take n, q.tick = true
  · rw [silentEnd_of_tick (s := driveForward (tickSpeeds s) (withInputs rest s)) hlater]
    rfl
  · rw [silentEnd_of_no_tick (s := driveForward (tickSpeeds s) (withInputs rest s)) hlater]
    rfl

theorem run_silent : ∀ (n : Nat) {s : State}, s.cfg.admitted = true → Silent s.inputs →
    run n s = .next (silentEnd n s)
  | 0, s, _, _ => by simp [silentEnd, withInputs]
  | n + 1, s, ha, hs => by
    cases hi : s.inputs with
    | nil =>
      rw [run_succ n (step_nil ha hi), run_silent n ha hs, silentEnd_nil hi, silentEnd_nil hi]
    | cons p rest =>
      rw [hi, Silent, List.forall_mem_cons] at hs
      obtain ⟨⟨hr, hv⟩, hrest⟩ := hs
      cases ht : p.tick with
      | false =>
        rw [run_succ n (step_idle ha hi hr ht hv), silentEnd_succ_idle hi ht]
        exact run_silent n ha hrest
      | true =>
        rw [run_succ n (step_silent_tick ha hi hr hv ht), silentEnd_succ_tick hi ht]
        exact run_silent n ha hrest

/-- Settles O49: `n` silent steps end in `silentEnd`, whose motors are those of one tick or those from before. -/
theorem silentLinkHoldsChannelsAndMotors : Obligations.SilentLinkHoldsChannelsAndMotors := by
  intro n s u hs hu
  have ha := (exec_mixTick_cases hu).1
  rw [exec_mixTick ha] at hu
  injection hu with hu
  subst hu
  refine ⟨_, run_silent n ha hs, ?_⟩
  by_cases hticks : ∃ p ∈ s.inputs.take n, p.tick = true
  · rw [silentEnd_of_tick hticks]
    refine ⟨rfl, tick_decoderKept _ _ s, fun hnone => ?_, fun _ => ⟨rfl, rfl⟩⟩
    obtain ⟨p, hp, ht⟩ := hticks
    exact absurd ht (by simp [hnone p hp])
  · rw [silentEnd_of_no_tick hticks]
    exact ⟨rfl, ⟨rfl, ⟨rfl, rfl, rfl, rfl⟩, fun _ => rfl⟩, fun _ => ⟨rfl, rfl⟩, fun h => absurd h hticks⟩

end Sys2Proof.Machine
end

section
/-! A whole frame (20_memory.md R62): from IDLE its bytes alone decide the channels it leaves, so feeding it again leaves
them as they are. -/

namespace Sys2Proof.Machine

/-! ### Byte cycles -/

/-- A cycle with only a byte runs that byte's effect on the state with the cycle taken. -/
theorem step_byteCycle {s t : State} {b : Byte} {rest : List PortIn} (ha : s.cfg.admitted = true)
    (hi : s.inputs = byteCycle b :: rest) (he : ByteEffect b (withInputs rest s) t) : step s = .next t :=
  (step_byte ha hi rfl rfl rfl).trans he.exec_eq

theorem CommitsOn.byteEffect {b : Byte} {s : State} (h : CommitsOn b s) :
    ByteEffect b s (returnToIdle (publish (decode6 s.buf) s)) :=
  .commit h.phase h.csum h.command h.len

theorem byteEffect_of_not_commitsOn {b : Byte} {s : State} (hp : s.phase = .ckHi) (h : ¬ CommitsOn b s) :
    ByteEffect b s (returnToIdle s) :=
  .discard hp fun ⟨hm, hc, hl⟩ => h ⟨hp, hm, hc, hl⟩

/-- R73: the cycles of a frame are its length byte, its payload and its two checksum bytes. -/
theorem byteCycles_wireFrame (fb lo hi : Byte) (payload : List Byte) (rest : List PortIn) :
    byteCycles (wireFrame fb payload lo hi) ++ rest =
      byteCycle fb :: (byteCycles payload ++ byteCycle lo :: byteCycle hi :: rest) := by
  simp [byteCycles, wireFrame]

/-! ### The payload on the wire and in the buffer -/

/-- The first buffer entries read as these bytes. -/
def HoldsBytes (m : Memory) (bs : List Byte) : Prop := ∀ k, k < bs.length → Memory.read m k = bs.getD k 0

theorem holdsBytes_nil (m : Memory) : HoldsBytes m [] := fun k hk => absurd hk (Nat.not_lt_zero k)

theorem holdsBytes_append_singleton_iff (m : Memory) (bs : List Byte) (b : Byte) :
    HoldsBytes m (bs ++ [b]) ↔ HoldsBytes m bs ∧ Memory.read m bs.length = b := by
  constructor
  · intro h
    refine ⟨fun k hk => ?_, ?_⟩
    · rw [h k (by simp; omega), List.getD_append _ _ _ _ hk]
    · rw [h bs.length (by simp), List.getD_append_right _ _ _ _ (Nat.le_refl _)]
      simp
  · rintro ⟨h, hb⟩ k hk
    by_cases hlt : k < bs.length
    · rw [h k hlt, List.getD_append _ _ _ _ hlt]
    · have hlast : k = bs.length := by simp at hk; omega
      rw [hlast, hb, List.getD_append_right _ _ _ _ (Nat.le_refl _)]
      simp

/-- A byte stored after the bytes held is held with them. -/
theorem HoldsBytes.bufWrite {m : Memory} {bs : List Byte} (h : HoldsBytes m bs) (hw : Memory.wf m = true) {i : Idx}
    (hi : i.toNat = bs.length) (b : Byte) : HoldsBytes (bufWrite m i b) (bs ++ [b]) := by
  rw [holdsBytes_append_singleton_iff]
  refine ⟨fun k hk => ?_, ?_⟩
  · rw [bufWrite_read hw, if_neg (by omega)]
    exact h k hk
  · rw [bufWrite_read hw, if_pos hi.symm]

theorem byteSum_append_singleton (b : Byte) : ∀ bs : List Byte, byteSum (bs ++ [b]) = byteSum bs + b.toNat
  | [] => by simp [byteSum]
  | c :: bs => by simp only [List.cons_append, byteSum, byteSum_append_singleton b bs, Nat.add_assoc]

/-- The sum that the invariant counts over the buffer is the sum over the wire. -/
theorem HoldsBytes.bufSum_eq {m : Memory} {bs : List Byte} (h : HoldsBytes m bs) : bufSum m bs.length = byteSum bs := by
  induction bs using List.reverseRecOn with
  | nil => rfl
  | append_singleton bs b ih =>
    obtain ⟨hbs, hb⟩ := (holdsBytes_append_singleton_iff m bs b).1 h
    rw [List.length_append, List.length_singleton, bufSum, ih hbs, hb, byteSum_append_singleton]

/-- R78: the command byte is the first payload byte. -/
theorem HoldsBytes.command_iff {m : Memory} {bs : List Byte} (h : HoldsBytes m bs) (hpos : 0 < bs.length) (c : Byte) :
    Memory.read m 0 = c ↔ bs.head? = some c := by
  rw [h 0 hpos]
  cases bs with
  | nil => exact absurd hpos (Nat.lt_irrefl 0)
  | cons b bs => simp

/-- R77: the field read from the buffer is the field on the wire. -/
theorem HoldsBytes.channelField_eq {m : Memory} {bs : List Byte} (h : HoldsBytes m bs) (hl : 13 ≤ bs.length)
    (i : Fin numCh) : channelField m i = payloadChannel bs i := by
  have hi : i.val < 6 := i.isLt
  have hlane (k : Nat) (hk : k ≤ 12) : bufRead m (BitVec.ofNat 5 k) = bs.getD k 0 := by
    rw [bufRead, BitVec.toNat_ofNat, Nat.mod_eq_of_lt (by omega)]
    exact h k (by omega)
  rw [channelField, payloadChannel, hlane _ (by omega), hlane _ (by omega)]

theorem HoldsBytes.decode6_eq {m : Memory} {bs : List Byte} (h : HoldsBytes m bs) (hl : 13 ≤ bs.length) :
    decode6 m = payloadChannels bs := by
  simp only [decode6, payloadChannels, h.channelField_eq hl]

/-! ### The payload, byte by byte -/

/-- What no byte before the last of a frame writes. -/
structure OutsideKept (s t : State) : Prop where
  channels : t.channels = s.channels
  motors : MotorsKept s t
  cfg : t.cfg = s.cfg

/-- In a frame with length byte `fb` that began in `s`, the payload bytes `got` have been received. -/
structure Receiving (s : State) (fb : Byte) (got : List Byte) (u : State) : Prop where
  len : u.len.toNat + 3 = fb.toNat
  ptr : u.ptr.toNat = got.length
  phase : u.phase = if got.length + 3 = fb.toNat then .ckLo else .accum
  frame : FrameInv u
  wf : Memory.wf u.buf = true
  held : HoldsBytes u.buf got
  outside : OutsideKept s u

theorem receiving_acceptLength {s : State} {fb : Byte} (hw : Memory.wf s.buf = true)
    (hfb : 3 < fb.toNat ∧ fb.toNat ≤ 32) (ps : List PortIn) :
    Receiving s fb [] (acceptLength fb (withInputs ps s)) where
  len := by rw [acceptLength_len_toNat hfb]; omega
  ptr := rfl
  phase := by
    rw [if_neg (by simp; omega)]
    rfl
  frame := acceptLength_frameInv hfb _
  wf := hw
  held := holdsBytes_nil _
  outside := ⟨rfl, ⟨rfl, rfl⟩, rfl⟩

namespace Receiving

variable {s u : State} {fb : Byte} {got : List Byte}

theorem phase_accum (h : Receiving s fb got u) (hlt : got.length + 3 < fb.toNat) : u.phase = .accum :=
  h.phase.trans (if_neg (by omega))

theorem phase_ckLo (h : Receiving s fb got u) (heq : got.length + 3 = fb.toNat) : u.phase = .ckLo :=
  h.phase.trans (if_pos heq)

theorem store (h : Receiving s fb got u) (hlt : got.length + 3 < fb.toNat) (ps : List PortIn) (b : Byte) :
    Receiving s fb (got ++ [b]) (storePayload b (withInputs ps u)) := by
  have hp := h.phase_accum hlt
  have hlen := h.len
  have hptr := h.ptr
  obtain ⟨hch, ⟨hA, hB⟩, hcfg⟩ := h.outside
  refine ⟨hlen, ?ptr, ?phase, storePayload_frameInv h.wf hp h.frame b, bufWrite_wf h.wf u.ptr b,
    h.held.bufWrite h.wf hptr b, ⟨hch, ⟨hA, hB⟩, hcfg⟩⟩
  case ptr =>
    have hbelow : (withInputs ps u).ptr.toNat < (withInputs ps u).len.toNat := by
      rw [withInputs_ptr, withInputs_len]
      omega
    rw [storePayload_ptr_toNat hbelow, withInputs_ptr, hptr, List.length_append, List.length_singleton]
  case phase =>
    have hlast : lastPayloadByte (withInputs ps u) = true ↔ (got ++ [b]).length + 3 = fb.toNat := by
      simp only [lastPayloadByte, withInputs_ptr, withInputs_len, beq_iff_eq, List.length_append,
        List.length_singleton]
      omega
    simp only [storePayload_phase, withInputs_phase, hp, hlast]

/-- R103, R79: the rest of the payload takes one step a byte. -/
theorem run_payload (ha : s.cfg.admitted = true) (rest : List PortIn) :
    ∀ (todo : List Byte) {got : List Byte} {u : State}, Receiving s fb got u →
      got.length + todo.length + 3 = fb.toNat → u.inputs = byteCycles todo ++ rest →
      ∃ v, run todo.length u = .next v ∧ Receiving s fb (got ++ todo) v ∧ v.inputs = rest
  | [], got, u, h, _, hi => ⟨u, rfl, by rwa [List.append_nil], hi⟩
  | b :: todo, got, u, h, hn, hi => by
    rw [List.length_cons] at hn
    have hlt : got.length + 3 < fb.toNat := by omega
    have hstep := step_byteCycle (h.outside.cfg ▸ ha) hi (.store (h.phase_accum hlt))
    obtain ⟨v, hrun, hv, hrest⟩ :=
      run_payload ha rest todo (h.store hlt _ b) (by simp; omega) rfl
    refine ⟨v, (run_succ _ hstep).trans hrun, ?_, hrest⟩
    rwa [List.append_assoc, List.singleton_append] at hv

/-- R76, R115: with the whole payload received the checksum register is the one the frame must carry. -/
theorem csum_toNat (h : Receiving s fb got u) (hn : got.length + 3 = fb.toNat) :
    u.csum.toNat = wireChecksum fb got := by
  obtain ⟨-, -, -, hcount⟩ := (frameInv_checksum_iff (.inl (h.phase_ckLo hn))).1 h.frame
  have hlen : u.len.toNat = got.length := by have := h.len; omega
  rw [CsumCounts, hlen, h.held.bufSum_eq] at hcount
  rw [wireChecksum]
  omega

/-- R117: the byte after the held low byte commits exactly when the bytes on the wire say so. -/
theorem commitsOn_iff (h : Receiving s fb got u) (hn : got.length + 3 = fb.toNat) (hfb : 3 < fb.toNat) (lo hi : Byte)
    (ps qs : List PortIn) :
    CommitsOn hi (withInputs qs (holdLowByte lo (withInputs ps u))) ↔
      wireValid fb got lo hi = true ∧ got.head? = some 0x40 ∧ 16 ≤ fb.toNat := by
  have hlen := h.len
  have hmatch : lo.toNat + 256 * hi.toNat = u.csum.toNat ↔ wireValid fb got lo hi = true := by
    rw [h.csum_toNat hn, wireValid, beq_iff_eq, eq_comm]
  have hcmd := h.held.command_iff (by omega) 0x40
  constructor
  · rintro ⟨-, hm, hc, hl⟩
    exact ⟨hmatch.1 hm, hcmd.1 hc, by rw [← hlen]; exact Nat.add_le_add_right hl 3⟩
  · rintro ⟨hm, hc, hl⟩
    exact ⟨rfl, hmatch.2 hm, hcmd.2 hc, show 13 ≤ u.len.toNat by omega⟩

end Receiving

/-! ### The whole frame -/

/-- R117: the channels that a frame leaves, by its bytes on the wire. -/
def frameChannels (fb : Byte) (payload : List Byte) (lo hi : Byte) (before : Channels) : Channels :=
  if wireValid fb payload lo hi = true ∧ payload.head? = some 0x40 ∧ 16 ≤ fb.toNat then payloadChannels payload
  else before

/-- What a frame publishes does not depend on the channels from before, so the second time changes nothing. -/
theorem frameChannels_idem (fb : Byte) (payload : List Byte) (lo hi : Byte) (c : Channels) :
    frameChannels fb payload lo hi (frameChannels fb payload lo hi c) = frameChannels fb payload lo hi c := by
  unfold frameChannels
  split <;> rfl

/-- A frame that began in `s` is over and has left the channels `c`. -/
structure FrameDone (s : State) (c : Channels) (rest : List PortIn) (t : State) : Prop where
  phase : t.phase = .idle
  inputs : t.inputs = rest
  cfg : t.cfg = s.cfg
  motors : MotorsKept s t
  wf : Memory.wf t.buf = true
  channels : t.channels = c

/-- R105 to R108: the two checksum bytes end the frame, with or without a commit. -/
theorem Receiving.run_checksum {s u : State} {fb lo hi : Byte} {got : List Byte} {rest : List PortIn}
    (h : Receiving s fb got u) (ha : s.cfg.admitted = true) (hn : got.length + 3 = fb.toNat) (hfb : 3 < fb.toNat)
    (hi' : u.inputs = byteCycle lo :: byteCycle hi :: rest) :
    ∃ t, run 2 u = .next t ∧ FrameDone s (frameChannels fb got lo hi s.channels) rest t := by
  have hau : u.cfg.admitted = true := h.outside.cfg ▸ ha
  have hlow := step_byteCycle hau hi' (.hold (h.phase_ckLo hn))
  have hrun {t : State} (he : ByteEffect hi (withInputs rest (holdLowByte lo (withInputs (byteCycle hi :: rest) u))) t) :
      run 2 u = .next t := (run_succ 1 hlow).trans (run_succ 0 (step_byteCycle hau rfl he))
  have hiff := h.commitsOn_iff hn hfb lo hi (byteCycle hi :: rest) rest
  obtain ⟨hch, ⟨hA, hB⟩, hcfg⟩ := h.outside
  by_cases hc : wireValid fb got lo hi = true ∧ got.head? = some 0x40 ∧ 16 ≤ fb.toNat
  · have hfields : decode6 u.buf = payloadChannels got := h.held.decode6_eq (by omega)
    exact ⟨_, hrun (hiff.2 hc).byteEffect, rfl, rfl, hcfg, ⟨hA, hB⟩, h.wf, hfields.trans (if_pos hc).symm⟩
  · exact ⟨_, hrun (byteEffect_of_not_commitsOn rfl (mt hiff.1 hc)), rfl, rfl, hcfg, ⟨hA, hB⟩, h.wf,
      hch.trans (if_neg hc).symm⟩

/-- R76, R79, R117: from IDLE a frame takes one step a byte and is decided by its bytes alone. -/
theorem run_wireFrame {s : State} {fb lo hi : Byte} {payload : List Byte} {rest : List PortIn}
    (ha : s.cfg.admitted = true) (hw : Memory.wf s.buf = true) (hp : s.phase = .idle)
    (hfb : 3 < fb.toNat ∧ fb.toNat ≤ 32) (hn : payload.length + 3 = fb.toNat)
    (hi' : s.inputs = byteCycles (wireFrame fb payload lo hi) ++ rest) :
    ∃ t, run fb.toNat s = .next t ∧ FrameDone s (frameChannels fb payload lo hi s.channels) rest t := by
  rw [byteCycles_wireFrame] at hi'
  have hstep := step_byteCycle ha hi' (.accept hp hfb)
  obtain ⟨u, hrun, hu, hrest⟩ :=
    Receiving.run_payload ha (byteCycle lo :: byteCycle hi :: rest) payload (receiving_acceptLength hw hfb _)
      (by simpa using hn) rfl
  obtain ⟨t, hend, ht⟩ := hu.run_checksum ha hn hfb.1 hrest
  refine ⟨t, ?_, ht⟩
  calc run fb.toNat s = run (payload.length + 2 + 1) s := by rw [← hn]
    _ = run 2 u := by rw [run_succ _ hstep, run_add _ 2 hrun]
    _ = .next t := hend

/-- Settles O41: the second run of the frame starts in IDLE as the first did, and is decided by the same bytes. -/
theorem sameFrameTwiceGivesTheSameChannels : Obligations.SameFrameTwiceGivesTheSameChannels := by
  intro s fb lo hi payload rest ha hw hp hgt hle hn hi'
  obtain ⟨t, hrun, ht⟩ := run_wireFrame ha hw hp ⟨hgt, hle⟩ hn hi'
  obtain ⟨u, hrun', hu⟩ := run_wireFrame (ht.cfg ▸ ha) ht.wf ht.phase ⟨hgt, hle⟩ hn ht.inputs
  refine ⟨t, u, hrun, (run_add _ _ hrun).trans hrun', ?_, hu.phase, hu.inputs⟩
  rw [hu.channels, ht.channels, frameChannels_idem]

end Sys2Proof.Machine
end

section
/-! The decoder and the encoder against the opcode table (30_encoding.md): a decoded row is the one whose word, operand
range and guard fit, and no other row of the table does. -/

namespace Sys2Proof

/-! ### What the decoder answers (R71, R78, R100, R143) -/

/-- R71: a decode word is its phase and its byte. -/
theorem decodeWordOf_dwPhase_dwByte (dw : BitVec 10) : decodeWordOf (dwPhase dw) (dwByte dw) = dw := by
  have hcode : ∀ c : BitVec 2, phaseCode (phaseOf c) = c := by decide
  have hdw := dw.isLt
  apply BitVec.eq_of_toNat_eq
  rw [decodeWordOf_toNat, dwPhase, hcode, dwByte, BitVec.extractLsb'_toNat, BitVec.extractLsb'_toNat,
    Nat.shiftRight_eq_div_pow]
  omega

@[simp] theorem decode_decodeWordOf (ctx : DecodeCtx) (p : Phase) (b : Byte) :
    decode ctx (.dw10 (decodeWordOf p b)) = .ok (decodeByte ctx p b) := by
  simp [decode]

@[simp] theorem decode_cmd8 (ctx : DecodeCtx) (cmd : Byte) : decode ctx (.cmd8 cmd) = .ok (decodeCommand cmd) := rfl

theorem decode_ev3_eq_ok_iff (ctx : DecodeCtx) (ev : BitVec 3) (i : Instr) :
    decode ctx (.ev3 ev) = .ok i ↔
      ev.getLsbD 2 = true ∧ i = .reset ∨ ev.getLsbD 2 = false ∧ ev.getLsbD 1 = true ∧ i = .mixTick := by
  rw [decode]
  split_ifs <;> simp_all [eq_comm (a := i)]

theorem decode_tick3_eq_ok_iff (ctx : DecodeCtx) (ev : BitVec 3) (i : Instr) :
    decode ctx (.tick3 ev) = .ok i ↔
      ev.getLsbD 2 = false ∧ ev.getLsbD 1 = true ∧ i = decodeBand (steerBand ctx.steer) := by
  rw [decode]
  split_ifs <;> simp_all [eq_comm (a := i)]

/-- R71: a byte's row has a well-formed operand and its guard holds. -/
theorem decodeByte_wf_guard (ctx : DecodeCtx) (p : Phase) (b : Byte) :
    (decodeByte ctx p b).wf = true ∧ (decodeByte ctx p b).guard ctx = true := by
  cases p with
  | idle =>
    rw [decodeByte, lenAccepted_eq_isLenByte]
    split
    case isTrue h => exact ⟨h, rfl⟩
    case isFalse h => exact ⟨by simpa [Instr.wf] using h, rfl⟩
  | accum => exact ⟨rfl, rfl⟩
  | ckLo => exact ⟨rfl, rfl⟩
  | ckHi =>
    rw [decodeByte]
    split_ifs with hm hc hs <;> simp_all [Instr.wf, Instr.guard, frameShort]

/-- R72: the encoder writes a decoded byte's row back as the decode word it came from. -/
theorem encode_decodeByte (ctx : DecodeCtx) (p : Phase) (b : Byte) :
    encode (decodeByte ctx p b) = .dw10 (decodeWordOf p b) := by
  cases p with
  | idle => rw [decodeByte]; split <;> rfl
  | accum | ckLo => rfl
  | ckHi => rw [decodeByte]; split_ifs <;> rfl

theorem decodeByte_mem_byteRows (ctx : DecodeCtx) (p : Phase) (b : Byte) : decodeByte ctx p b ∈ byteRows b := by
  cases p with
  | idle => rw [decodeByte]; split <;> simp [byteRows]
  | accum | ckLo => simp [decodeByte, byteRows]
  | ckHi => rw [decodeByte]; split_ifs <;> simp [byteRows]

theorem decodeCommand_wf_guard (ctx : DecodeCtx) (cmd : Byte) :
    (decodeCommand cmd).wf = true ∧ (decodeCommand cmd).guard ctx = true := by
  rw [decodeCommand]
  split
  case isTrue => exact ⟨rfl, rfl⟩
  case isFalse h => exact ⟨bne_iff_ne.2 h, rfl⟩

/-- R78: the encoder writes a decoded command's row back as the command byte. -/
theorem encode_decodeCommand (cmd : Byte) : encode (decodeCommand cmd) = .cmd8 cmd := by
  rw [decodeCommand]
  split
  case isTrue h => rw [h]; rfl
  case isFalse => rfl

theorem decodeCommand_mem_commandRows (cmd : Byte) : decodeCommand cmd ∈ commandRows cmd := by
  rw [decodeCommand]
  split <;> simp [commandRows]

theorem decodeBand_mem_bandRows (band : Band) : decodeBand band ∈ bandRows := by
  cases band <;> simp [decodeBand, bandRows]

/-- R143: the guard column of the band rows is the steering band. -/
theorem guard_decodeBand_iff (ctx : DecodeCtx) (band : Band) :
    (decodeBand band).guard ctx = true ↔ steerBand ctx.steer = band := by
  cases band with
  | straight => rw [Machine.steerBand_straight_iff]; exact decide_eq_true_iff
  | right => rw [Machine.steerBand_right_iff]; exact decide_eq_true_iff
  | left => rw [Machine.steerBand_left_iff]; exact decide_eq_true_iff

/-! ### Decoding an encoded row (R71, R72, R84) -/

theorem decode_encode_of_byte {ctx : DecodeCtx} {i : Instr} {p : Phase} {b : Byte}
    (hw : encode i = .dw10 (decodeWordOf p b)) (hi : decodeByte ctx p b = i) : decode ctx (encode i) = .ok i := by
  rw [hw, decode_decodeWordOf, hi]

theorem decode_encode_of_band {ctx : DecodeCtx} {band : Band} (hg : (decodeBand band).guard ctx = true) :
    decode ctx (encode (decodeBand band)) = .ok (decodeBand band) := by
  have hw : encode (decodeBand band) = .tick3 0b010 := by cases band <;> rfl
  rw [hw, decode_tick3_eq_ok_iff, (guard_decodeBand_iff ctx band).1 hg]
  exact ⟨rfl, rfl, rfl⟩

theorem decode_encode {ctx : DecodeCtx} {i : Instr} (hwf : i.wf = true) (hg : i.guard ctx = true) :
    decode ctx (encode i) = .ok i := by
  cases i with
  | idleLenAccept b =>
    have hlen : lenAccepted b = true := (lenAccepted_eq_isLenByte b).trans hwf
    exact decode_encode_of_byte (p := .idle) rfl (by simp [decodeByte, hlen])
  | idleDrop b =>
    have hlen : lenAccepted b = false := by simpa [Instr.wf, lenAccepted_eq_isLenByte] using hwf
    exact decode_encode_of_byte (p := .idle) rfl (by simp [decodeByte, hlen])
  | accumByte b => exact decode_encode_of_byte (p := .accum) rfl rfl
  | ckloByte b => exact decode_encode_of_byte (p := .ckLo) rfl rfl
  | ckhiCommit b =>
    simp only [Instr.guard, Bool.and_eq_true, beq_iff_eq, decide_eq_true_eq] at hg
    obtain ⟨⟨hm, hc⟩, hl⟩ := hg
    exact decode_encode_of_byte (p := .ckHi) rfl (by simp [decodeByte, frameShort, hm, hc, Nat.not_lt.2 hl])
  | ckhiDiscardCmd b =>
    obtain ⟨hm, hc⟩ := Bool.and_eq_true_iff.1 hg
    have hc : ctx.cmd ≠ cmdSetChannelsCode := bne_iff_ne.1 hc
    exact decode_encode_of_byte (p := .ckHi) rfl (by rw [decodeByte, if_pos hm, if_pos hc])
  | ckhiReject b =>
    have hm : csumMatch ctx b = false := by simpa [Instr.guard] using hg
    exact decode_encode_of_byte (p := .ckHi) rfl (by simp [decodeByte, hm])
  | ckhiDiscardShort b =>
    simp only [Instr.guard, Bool.and_eq_true, beq_iff_eq, decide_eq_true_eq] at hg
    obtain ⟨⟨hm, hc⟩, hl⟩ := hg
    exact decode_encode_of_byte (p := .ckHi) rfl (by simp [decodeByte, frameShort, hm, hc, hl])
  | cmdSetChannels => rfl
  | cmdUnrecognised cmd =>
    have hc : cmd ≠ cmdSetChannelsCode := bne_iff_ne.1 hwf
    rw [encode, decode_cmd8, decodeCommand, if_neg hc]
  | mixTick => rfl
  | mixStraight => exact decode_encode_of_band (band := .straight) hg
  | mixRight => exact decode_encode_of_band (band := .right) hg
  | mixLeft => exact decode_encode_of_band (band := .left) hg
  | reset => rfl

/-- Settles O29: row by row, the guard sends the decoder back to the row. -/
theorem decodeGivesBackWhatWasEncoded : Obligations.DecodeGivesBackWhatWasEncoded :=
  fun _ _ hwf hg => decode_encode hwf hg

/-! ### The word of a row matches the row (R71, R84) -/

/-- `Laws.EncodingMatchesRow`, put together over the 15 rows. -/
theorem patterns_hit_encode {i : Instr} (hwf : i.wf = true) : i.patterns.any (·.hits (encode i).bits) = true := by
  revert hwf
  cases i with
  | idleLenAccept b => exact Laws.EncodingMatchesRow.idleLenAccept b
  | idleDrop b => exact Laws.EncodingMatchesRow.idleDrop b
  | accumByte b => exact Laws.EncodingMatchesRow.accumByte b
  | ckloByte b => exact Laws.EncodingMatchesRow.ckloByte b
  | ckhiCommit b => exact Laws.EncodingMatchesRow.ckhiCommit b
  | ckhiDiscardCmd b => exact Laws.EncodingMatchesRow.ckhiDiscardCmd b
  | ckhiReject b => exact Laws.EncodingMatchesRow.ckhiReject b
  | ckhiDiscardShort b => exact Laws.EncodingMatchesRow.ckhiDiscardShort b
  | cmdSetChannels => exact Laws.EncodingMatchesRow.cmdSetChannels
  | cmdUnrecognised cmd => exact Laws.EncodingMatchesRow.cmdUnrecognised cmd
  | mixTick => exact Laws.EncodingMatchesRow.mixTick
  | mixStraight => exact Laws.EncodingMatchesRow.mixStraight
  | mixRight => exact Laws.EncodingMatchesRow.mixRight
  | mixLeft => exact Laws.EncodingMatchesRow.mixLeft
  | reset => exact Laws.EncodingMatchesRow.reset

theorem rowMatches_iff (ctx : DecodeCtx) (w : Nat) (i : Instr) :
    i.rowMatches ctx w = true ↔ i.patterns.any (·.hits w) = true ∧ i.guard ctx = true :=
  Bool.and_eq_true_iff

theorem rowMatches_of_encode {ctx : DecodeCtx} {w : TableWord} {i : Instr} (hw : encode i = w) (hwf : i.wf = true)
    (hg : i.guard ctx = true) : i.rowMatches ctx w.bits = true :=
  (rowMatches_iff ctx w.bits i).2 ⟨hw ▸ patterns_hit_encode hwf, hg⟩

/-- The EV3 rows do not read the whole port vector: RESET ignores the lower two bits, a tick the lowest. -/
theorem reset_hits : ∀ ev : BitVec 3, ev.getLsbD 2 = true →
    Pattern.hits ⟨0b100, 0b100⟩ ev.toNat = true := by decide

theorem tick_hits : ∀ ev : BitVec 3, ev.getLsbD 2 = false → ev.getLsbD 1 = true →
    Pattern.hits ⟨0b110, 0b010⟩ ev.toNat = true := by decide

/-- R84: within a tick every band row matches the port vector, and the guards alone choose. -/
theorem band_rowMatches_iff (ctx : DecodeCtx) {ev : BitVec 3} (h2 : ev.getLsbD 2 = false) (h1 : ev.getLsbD 1 = true)
    (band : Band) : (decodeBand band).rowMatches ctx ev.toNat = true ↔ steerBand ctx.steer = band := by
  have hp : (decodeBand band).patterns = [⟨0b110, 0b010⟩] := by cases band <;> rfl
  rw [rowMatches_iff, guard_decodeBand_iff, hp]
  simp [tick_hits ev h2 h1]

/-- Settles O30: by the format of the word; a decode word and a command byte are the encoder's own, and of a port vector
the row reads only some bits. -/
theorem decodedRowMatchesTheTable : Obligations.DecodedRowMatchesTheTable := by
  intro ctx w i h
  cases w with
  | dw10 dw =>
    rw [← decodeWordOf_dwPhase_dwByte dw] at h ⊢
    rw [decode_decodeWordOf] at h
    obtain rfl := Except.ok.inj h
    obtain ⟨hwf, hg⟩ := decodeByte_wf_guard ctx (dwPhase dw) (dwByte dw)
    exact ⟨hwf, rowMatches_of_encode (encode_decodeByte ctx _ _) hwf hg⟩
  | cmd8 cmd =>
    obtain rfl := Except.ok.inj h
    obtain ⟨hwf, hg⟩ := decodeCommand_wf_guard ctx cmd
    exact ⟨hwf, rowMatches_of_encode (encode_decodeCommand cmd) hwf hg⟩
  | ev3 ev =>
    obtain ⟨h2, rfl⟩ | ⟨h2, h1, rfl⟩ := (decode_ev3_eq_ok_iff ctx ev i).1 h
    · exact ⟨rfl, (rowMatches_iff ctx _ _).2 ⟨List.any_eq_true.2 ⟨_, .head _, reset_hits ev h2⟩, rfl⟩⟩
    · exact ⟨rfl, (rowMatches_iff ctx _ _).2 ⟨List.any_eq_true.2 ⟨_, .head _, tick_hits ev h2 h1⟩, rfl⟩⟩
  | tick3 ev =>
    obtain ⟨h2, h1, rfl⟩ := (decode_tick3_eq_ok_iff ctx ev i).1 h
    refine ⟨?_, (band_rowMatches_iff ctx h2 h1 _).2 rfl⟩
    cases steerBand ctx.steer <;> rfl

/-! ### No other row matches (R71, D3, D13) -/

/-- The patterns of a row fix both phase bits of the decode word, to the code of `q`. -/
def FixesPhase (q : Phase) (ps : List Pattern) : Prop :=
  ∀ x ∈ ps, x.mask / 256 = 3 ∧ x.pat / 256 = (phaseCode q).toNat

theorem phaseCode_inj {p q : Phase} (h : phaseCode p = phaseCode q) : p = q := by
  rw [← phaseOf_phaseCode p, h, phaseOf_phaseCode]

/-- R72: such a row is hit by words of its own phase only. -/
theorem FixesPhase.eq_of_hits {p q : Phase} {ps : List Pattern} {b : Byte} (hq : FixesPhase q ps)
    (h : ps.any (·.hits (decodeWordOf p b).toNat) = true) : p = q := by
  obtain ⟨x, hx, hit⟩ := List.any_eq_true.1 h
  obtain ⟨hmask, hpat⟩ := hq x hx
  have hhigh : (decodeWordOf p b).toNat / 256 = (phaseCode p).toNat := by
    have := b.isLt
    rw [decodeWordOf_toNat]
    omega
  have hcode : (phaseCode p).toNat &&& 3 = (phaseCode p).toNat := by cases p <;> rfl
  apply phaseCode_inj
  apply BitVec.eq_of_toNat_eq
  calc (phaseCode p).toNat = (decodeWordOf p b).toNat / 256 &&& x.mask / 256 := by rw [hhigh, hmask, hcode]
    _ = ((decodeWordOf p b).toNat &&& x.mask) / 256 := (Nat.and_div_two_pow (n := 8)).symm
    _ = x.pat / 256 := by rw [beq_iff_eq.1 hit]
    _ = (phaseCode q).toNat := hpat

/-- R72: each byte row is of one phase: its patterns fix it, and the encoder writes it. -/
theorem byteRow_phase {b : Byte} {i : Instr} (hi : i ∈ byteRows b) :
    ∃ q, FixesPhase q i.patterns ∧ encode i = .dw10 (decodeWordOf q b) := by
  simp only [byteRows, List.mem_cons, List.not_mem_nil, or_false] at hi
  rcases hi with rfl | rfl | rfl | rfl | hckHi
  · exact ⟨.idle, by simp [FixesPhase, Instr.patterns, phaseCode], rfl⟩
  · exact ⟨.idle, by simp [FixesPhase, Instr.patterns, phaseCode], rfl⟩
  · exact ⟨.accum, by simp [FixesPhase, Instr.patterns, phaseCode], rfl⟩
  · exact ⟨.ckLo, by simp [FixesPhase, Instr.patterns, phaseCode], rfl⟩
  · refine ⟨.ckHi, ?_⟩
    rcases hckHi with rfl | rfl | rfl | rfl <;> exact ⟨by simp [FixesPhase, Instr.patterns, phaseCode], rfl⟩

/-- R84: where a row restricts its operand, its patterns do too. -/
theorem wf_of_patterns_hit_encode {i : Instr} (h : i.patterns.any (·.hits (encode i).bits) = true) : i.wf = true := by
  cases i with
  | idleLenAccept b => exact (Laws.idle_patterns b).1.symm.trans h
  | idleDrop b => exact (Laws.idle_patterns b).2.symm.trans h
  | cmdUnrecognised cmd => exact (Laws.command_patterns cmd).symm.trans h
  | accumByte | ckloByte | ckhiCommit | ckhiDiscardCmd | ckhiReject | ckhiDiscardShort | cmdSetChannels | mixTick
  | mixStraight | mixRight | mixLeft | reset => rfl

/-- R71: a byte row is hit by its own word only, with a byte in its range. -/
theorem encode_eq_of_byteRow_hits {p : Phase} {b : Byte} {i : Instr} (hi : i ∈ byteRows b)
    (h : i.patterns.any (·.hits (decodeWordOf p b).toNat) = true) :
    encode i = .dw10 (decodeWordOf p b) ∧ i.wf = true := by
  obtain ⟨q, hq, hw⟩ := byteRow_phase hi
  obtain rfl := hq.eq_of_hits h
  exact ⟨hw, wf_of_patterns_hit_encode (hw ▸ h)⟩

/-- R78: the same for the command rows. -/
theorem encode_eq_of_commandRow_hits {cmd : Byte} {i : Instr} (hi : i ∈ commandRows cmd)
    (h : i.patterns.any (·.hits cmd.toNat) = true) : encode i = .cmd8 cmd ∧ i.wf = true := by
  have hknown : ∀ c : Byte, Instr.cmdSetChannels.patterns.any (·.hits c.toNat) = true → c = 0x40 := by decide
  have hw : encode i = .cmd8 cmd := by
    simp only [commandRows, List.mem_cons, List.not_mem_nil, or_false] at hi
    rcases hi with rfl | rfl
    · rw [hknown cmd h]
      rfl
    · rfl
  exact ⟨hw, wf_of_patterns_hit_encode (hw ▸ h)⟩

/-- Decoding inverts encoding, so two rows with one word and both guards met are one row. -/
theorem eq_of_encode_of_decode {ctx : DecodeCtx} {w : TableWord} {i j : Instr} (hw : encode i = w ∧ i.wf = true)
    (hg : i.guard ctx = true) (hj : decode ctx w = .ok j) : i = j := by
  obtain ⟨rfl, hwf⟩ := hw
  exact Except.ok.inj ((decode_encode hwf hg).symm.trans hj)

theorem byteRow_matches_iff (ctx : DecodeCtx) (p : Phase) {b : Byte} {i : Instr} (hi : i ∈ byteRows b) :
    i.rowMatches ctx (decodeWordOf p b).toNat = true ↔ i = decodeByte ctx p b := by
  constructor
  · intro h
    obtain ⟨hhit, hg⟩ := (rowMatches_iff ctx _ i).1 h
    exact eq_of_encode_of_decode (encode_eq_of_byteRow_hits hi hhit) hg (decode_decodeWordOf ctx p b)
  · rintro rfl
    obtain ⟨hwf, hg⟩ := decodeByte_wf_guard ctx p b
    exact rowMatches_of_encode (encode_decodeByte ctx p b) hwf hg

theorem commandRow_matches_iff (ctx : DecodeCtx) {cmd : Byte} {i : Instr} (hi : i ∈ commandRows cmd) :
    i.rowMatches ctx cmd.toNat = true ↔ i = decodeCommand cmd := by
  constructor
  · intro h
    obtain ⟨hhit, hg⟩ := (rowMatches_iff ctx _ i).1 h
    exact eq_of_encode_of_decode (encode_eq_of_commandRow_hits hi hhit) hg (decode_cmd8 ctx cmd)
  · rintro rfl
    obtain ⟨hwf, hg⟩ := decodeCommand_wf_guard ctx cmd
    exact rowMatches_of_encode (encode_decodeCommand cmd) hwf hg

theorem bandRow_matches_iff (ctx : DecodeCtx) {ev : BitVec 3} (h2 : ev.getLsbD 2 = false) (h1 : ev.getLsbD 1 = true)
    {i : Instr} (hi : i ∈ bandRows) : i.rowMatches ctx ev.toNat = true ↔ i = decodeBand (steerBand ctx.steer) := by
  have hinj {x y : Band} : decodeBand x = decodeBand y ↔ y = x := by cases x <;> cases y <;> decide
  have hband : ∃ band, i = decodeBand band := by
    simp only [bandRows, List.mem_cons, List.not_mem_nil, or_false] at hi
    rcases hi with rfl | rfl | rfl
    exacts [⟨.straight, rfl⟩, ⟨.right, rfl⟩, ⟨.left, rfl⟩]
  obtain ⟨band, rfl⟩ := hband
  rw [band_rowMatches_iff ctx h2 h1, hinj]

/-- The one entry of a list without repetitions that a test picks out. -/
theorem filter_eq_singleton {l : List Instr} {f : Instr → Bool} {x : Instr} (hl : l.Nodup) (hx : x ∈ l)
    (h : ∀ i ∈ l, f i = true ↔ i = x) : l.filter f = [x] := by
  calc l.filter f = l.filter (· == x) := List.filter_congr fun i hi => by rw [Bool.eq_iff_iff, h i hi, beq_iff_eq]
    _ = [x] := by rw [List.filter_beq, List.count_eq_one_of_mem hl hx, List.replicate_one]

/-- Settles O31: in each family a row matches exactly if it is the one the decoder answers. -/
theorem exactlyOneRowMatches : Obligations.ExactlyOneRowMatches := by
  refine ⟨fun ctx p b => ?bytes, fun ctx cmd => ?commands, fun ctx inValid => ?bands⟩
  case bytes =>
    exact filter_eq_singleton (by simp [byteRows]) (decodeByte_mem_byteRows ctx p b) fun _ => byteRow_matches_iff ctx p
  case commands =>
    exact filter_eq_singleton (by simp [commandRows]) (decodeCommand_mem_commandRows cmd) fun _ =>
      commandRow_matches_iff ctx
  case bands =>
    exact filter_eq_singleton (by decide) (decodeBand_mem_bandRows _) fun _ =>
      bandRow_matches_iff ctx (portVector_rst ..) (portVector_tick ..)

/-- Settles O33: the nine words, evaluated. -/
theorem tableWordsDecodeToTheirRows : Obligations.TableWordsDecodeToTheirRows :=
  ⟨rfl, rfl, rfl, rfl, rfl, rfl, rfl, rfl, rfl⟩

end Sys2Proof
end

section
/-! The encoding in a run (30_encoding.md sections 1 and 2): a length byte's range, a word placed where the next
step takes it, and a frame on the wire. -/

namespace Sys2Proof.Machine

/-- Settles O32: the decoder's test is the range, and the stored count is its 5-bit difference. -/
theorem lengthByteRange : Obligations.LengthByteRange := by
  intro s fb hp
  constructor
  · rw [hp, decodeByte, ← lenAccepted_iff]
    split <;> simp_all
  · intro hgt hle
    have hlen : (acceptLength fb s).len.toNat = fb.toNat - 3 := acceptLength_len_toNat ⟨hgt, hle⟩ s
    exact ⟨_, exec_idleLenAccept fb s, by omega, by omega, by omega⟩

/-- R109, R111, R112: once the checksum matches, the last byte of a frame does what the row of its command does. -/
theorem exec_decodeByte_of_csumMatch {s : State} {b : Byte} (hm : csumMatch (decodeCtx s) b = true) :
    exec (decodeByte (decodeCtx s) .ckHi b) s = exec (decodeCommand (bufRead s.buf 0)) s := by
  have hcmd : (decodeCtx s).cmd = bufRead s.buf 0 := rfl
  have hshort : frameShort (decodeCtx s) = true ↔ s.len.toNat < 13 := frameShort_iff (decodeCtx s)
  simp only [decodeByte, decodeCommand, hm, if_true, hcmd]
  by_cases hc : bufRead s.buf 0 = cmdSetChannelsCode
  · rw [if_neg (not_not.2 hc), if_pos hc, exec_cmdSetChannels]
    by_cases hl : s.len.toNat < 13
    · rw [if_pos (hshort.2 hl), if_pos hl, exec_ckhiDiscardShort]
    · rw [if_neg (mt hshort.1 hl), if_neg hl, exec_ckhiCommit]
  · rw [if_pos hc, if_neg hc, exec_ckhiDiscardCmd, exec_cmdUnrecognised]

/-- The registers of a frame whose next byte completes a matching checksum over the command `cmd`. -/
def completing (cmd : Byte) (s : State) : State :=
  { s with phase := .ckHi, buf := bufWrite s.buf 0 cmd, cklo := lowByte s.csum }

theorem step_placeWord_dw10 {s : State} (ha : s.cfg.admitted = true) (p : Phase) (b : Byte) :
    step (placeWord (.dw10 (decodeWordOf p b)) s) =
      exec (decodeByte (decodeCtx s) p b) { s with phase := p } := by
  have hplaced : placeWord (.dw10 (decodeWordOf p b)) s =
      { s with phase := p, inputs := byteCycle b :: s.inputs } := by
    simp [placeWord]
  rw [hplaced]
  exact step_byte (p := byteCycle b) (rest := s.inputs) ha rfl rfl rfl rfl

theorem step_placeWord_cmd8 {s : State} (ha : s.cfg.admitted = true) (hw : Memory.wf s.buf = true) (cmd : Byte) :
    step (placeWord (.cmd8 cmd) s) = exec (decodeCommand cmd) (completing cmd s) := by
  have hmatch : csumMatch (decodeCtx (completing cmd s)) (highByte s.csum) = true :=
    beq_iff_eq.2 (pair16_lowByte_highByte s.csum)
  have hcmd : bufRead (completing cmd s).buf 0 = cmd := bufWrite_read hw 0 cmd 0
  calc step (placeWord (.cmd8 cmd) s)
      = exec (decodeByte (decodeCtx (completing cmd s)) .ckHi (highByte s.csum)) (completing cmd s) :=
        step_byte (s := placeWord (.cmd8 cmd) s) (p := byteCycle (highByte s.csum)) (rest := s.inputs) ha rfl rfl rfl
          rfl
    _ = exec (decodeCommand cmd) (completing cmd s) := by rw [exec_decodeByte_of_csumMatch hmatch, hcmd]

theorem step_placeWord_tick {s : State} (ha : s.cfg.admitted = true) :
    step (placeWord (.ev3 0b010) s) = exec .mixTick s :=
  step_tick (s := placeWord (.ev3 0b010) s) (p := tickCycle) (rest := s.inputs) ha rfl rfl rfl

theorem step_placeWord_reset {s : State} (ha : s.cfg.admitted = true) :
    step (placeWord (.ev3 0b100) s) = exec .reset s :=
  step_reset (s := placeWord (.ev3 0b100) s) (p := resetCycle) (rest := s.inputs) ha rfl rfl

/-- Settles O34: each placed word is the event of the cycle that the step takes. -/
theorem placedWordIsTheOneThatRuns : Obligations.PlacedWordIsTheOneThatRuns :=
  fun _ ha => ⟨step_placeWord_dw10 ha, fun cmd hw => step_placeWord_cmd8 ha hw cmd, step_placeWord_tick ha,
    step_placeWord_reset ha⟩

/-- Settles O38: a whole frame's run, its end taken field by field. -/
theorem frameIsDecidedByItsWireBytes : Obligations.FrameIsDecidedByItsWireBytes := by
  intro s fb lo hi payload rest ha hw hp hgt hle hn hi'
  obtain ⟨t, hrun, ht⟩ := run_wireFrame ha hw hp ⟨hgt, hle⟩ hn hi'
  exact ⟨t, hrun, ht.phase, ht.inputs, ht.cfg, ht.motors, ht.channels⟩

end Sys2Proof.Machine
end

section
/-! The decoder's rows, one event each (40_frame_decoder.md sections 2 and 3): which row a byte runs (R100), and what
that row writes and leaves unchanged. -/

namespace Sys2Proof.Machine

/-! ### A byte in IDLE (R101, R102) -/

theorem decodeByte_idle {s : State} (hp : s.phase = .idle) (b : Byte) :
    decodeByte (decodeCtx s) s.phase b =
      if 3 < b.toNat ∧ b.toNat ≤ 32 then .idleLenAccept b else .idleDrop b := by
  simp only [hp, decodeByte, lenAccepted_iff]

/-- R101: the seed of the checksum loses the length byte without a borrow. -/
theorem acceptLength_csum_toNat (b : Byte) (s : State) : (acceptLength b s).csum.toNat = 0xFFFF - b.toNat := by
  rw [acceptLength_csum, BitVec.toNat_sub, BitVec.toNat_setWidth]
  simp
  omega

/-- Settles O9: the length and the checksum seed in numbers; the rest of the row is its register lemmas. -/
theorem idleLenAcceptStartsAFrame : Obligations.IdleLenAcceptStartsAFrame := by
  intro b s hgt hle
  have hlen := acceptLength_len_toNat ⟨hgt, hle⟩ s
  have hcsum := acceptLength_csum_toNat b s
  exact ⟨fun hp => (decodeByte_idle hp b).trans (if_pos ⟨hgt, hle⟩), _, exec_idleLenAccept b s, hlen, by omega,
    by omega, hcsum, by omega, by omega, rfl, rfl, rfl, fun _ => rfl, rfl, ⟨rfl, rfl⟩, ⟨rfl, rfl⟩⟩

/-- Settles O10: outside the range the byte runs the row that answers the state itself. -/
theorem idleDropLeavesNoTrace : Obligations.IdleDropLeavesNoTrace :=
  fun b s hb => ⟨fun hp => (decodeByte_idle hp b).trans (if_neg (by omega)), exec_idleDrop b s⟩

/-! ### A payload byte and the checksum's low byte (R103, R104) -/

theorem decodeByte_accum {s : State} (hp : s.phase = .accum) (b : Byte) :
    decodeByte (decodeCtx s) s.phase b = .accumByte b := by
  rw [hp, decodeByte]

theorem decodeByte_ckLo {s : State} (hp : s.phase = .ckLo) (b : Byte) :
    decodeByte (decodeCtx s) s.phase b = .ckloByte b := by
  rw [hp, decodeByte]

theorem storePayload_csum_toNat (b : Byte) (s : State) :
    (storePayload b s).csum.toNat = (s.csum.toNat + 65536 - b.toNat) % 65536 := by
  rw [storePayload_csum, BitVec.toNat_sub, BitVec.toNat_setWidth]
  omega

theorem storePayload_phase_of_last {s : State} (h : s.ptr.toNat + 1 = s.len.toNat) (b : Byte) :
    (storePayload b s).phase = .ckLo := by
  rw [storePayload_phase, lastPayloadByte, if_pos (beq_iff_eq.2 h)]

theorem storePayload_phase_of_not_last {s : State} (h : s.ptr.toNat + 1 ≠ s.len.toNat) (b : Byte) :
    (storePayload b s).phase = s.phase := by
  rw [storePayload_phase, lastPayloadByte, if_neg (mt beq_iff_eq.1 h)]

/-- Settles O11: the buffer by the read-after-write law, the registers in numbers. -/
theorem accumByteStoresAndSubtracts : Obligations.AccumByteStoresAndSubtracts := by
  intro b s hp hlt hw
  have hread := bufWrite_read hw s.ptr b
  exact ⟨decodeByte_accum hp b, _, exec_accumByte b s, (hread s.ptr.toNat).trans (if_pos rfl),
    fun a ha => (hread a).trans (if_neg ha), storePayload_csum_toNat b s, storePayload_ptr_toNat hlt b,
    fun hlast => storePayload_phase_of_last hlast b, fun hlast => (storePayload_phase_of_not_last hlast b).trans hp,
    rfl, rfl, rfl, ⟨rfl, rfl⟩, ⟨rfl, rfl⟩⟩

/-- Settles O12: the row writes `cklo` and the phase, and its register lemmas give the rest. -/
theorem ckloByteHoldsTheLowByte : Obligations.CkloByteHoldsTheLowByte :=
  fun b s => ⟨fun hp => decodeByte_ckLo hp b, _, exec_ckloByte b s, rfl, rfl, rfl, rfl, rfl, fun _ => rfl, rfl,
    ⟨rfl, rfl⟩, ⟨rfl, rfl⟩⟩

/-! ### The last byte of a frame (R105 to R112) -/

/-- R100, R109: the checksum is examined first, then the command, then the length. -/
theorem decodeByte_ckHi {s : State} (hp : s.phase = .ckHi) (b : Byte) :
    decodeByte (decodeCtx s) s.phase b =
      if s.cklo.toNat + 256 * b.toNat = s.csum.toNat then
        if Memory.read s.buf 0 ≠ 0x40 then .ckhiDiscardCmd b
        else if s.len.toNat < 13 then .ckhiDiscardShort b
        else .ckhiCommit b
      else .ckhiReject b := by
  have hmatch : csumMatch (decodeCtx s) b = true ↔ s.cklo.toNat + 256 * b.toNat = s.csum.toNat :=
    csumMatch_iff (decodeCtx s) b
  have hshort : frameShort (decodeCtx s) = true ↔ s.len.toNat < 13 := frameShort_iff (decodeCtx s)
  have hcmd : (decodeCtx s).cmd = Memory.read s.buf 0 := rfl
  simp only [hp, decodeByte, hmatch, hshort, hcmd, cmdSetChannelsCode_eq]

theorem decode6_get (m : Memory) (i : Fin numCh) : (decode6 m).get i = channelField m i := by
  fin_cases i <;> rfl

/-- R77, R110: a lane is two buffer entries, low byte first. -/
theorem channelField_toNat (m : Memory) (i : Fin numCh) :
    (channelField m i).toNat =
      (Memory.read m (1 + 2 * i.val)).toNat + 256 * (Memory.read m (2 + 2 * i.val)).toNat := by
  have hi : i.val < 6 := i.isLt
  have hlane (k : Nat) (hk : k ≤ 12) : bufRead m (BitVec.ofNat 5 k) = Memory.read m k := by
    rw [bufRead, BitVec.toNat_ofNat, Nat.mod_eq_of_lt (by omega)]
  rw [channelField, pair16_toNat, hlane _ (by omega), hlane _ (by omega)]

theorem decode6_get_toNat (m : Memory) (i : Fin numCh) :
    ((decode6 m).get i).toNat =
      (Memory.read m (1 + 2 * i.val)).toNat + 256 * (Memory.read m (2 + 2 * i.val)).toNat := by
  rw [decode6_get, channelField_toNat]

/-- The end of a frame writes the channels and the phase only. -/
theorem returnToIdle_publish_kept (c : Channels) (s : State) :
    FrameRegsKept s (returnToIdle (publish c s)) ∧ BufKept s (returnToIdle (publish c s)) ∧
      MotorsKept s (returnToIdle (publish c s)) ∧ EnvKept s (returnToIdle (publish c s)) :=
  ⟨⟨rfl, rfl, rfl, rfl⟩, fun _ => rfl, ⟨rfl, rfl⟩, ⟨rfl, rfl⟩⟩

/-- R191: a discarded frame is one that publishes the channels from before. -/
theorem returnToIdle_kept (s : State) :
    FrameRegsKept s (returnToIdle s) ∧ BufKept s (returnToIdle s) ∧ MotorsKept s (returnToIdle s) ∧
      EnvKept s (returnToIdle s) :=
  returnToIdle_publish_kept s.channels s

/-- Settles O13: the guard by the order of the decoder's tests, the channels lane by lane. -/
theorem ckhiCommitPublishesSixChannels : Obligations.CkhiCommitPublishesSixChannels := by
  intro b s
  constructor
  · intro hp hm hc hl
    rw [decodeByte_ckHi hp, if_pos hm, if_neg (not_not.2 hc), if_neg (by omega)]
  · exact ⟨_, exec_ckhiCommit b s, decode6_get_toNat s.buf, rfl, returnToIdle_publish_kept (decode6 s.buf) s⟩

/-- Settles O14: both rows are the one recovery action. -/
theorem ckhiRejectAndDiscardOnlyReturnToIdle : Obligations.CkhiRejectAndDiscardOnlyReturnToIdle := by
  intro b s
  refine ⟨fun hp hm => ?reject, fun hp hm hc => ?discard, fun i hi => ?rows⟩
  case reject => rw [decodeByte_ckHi hp, if_neg hm]
  case discard => rw [decodeByte_ckHi hp, if_pos hm, if_pos hc]
  case rows =>
    have hexec : exec i s = .next (returnToIdle s) := by
      rcases List.mem_pair.1 hi with rfl | rfl
      · exact exec_ckhiReject b s
      · exact exec_ckhiDiscardCmd b s
    obtain ⟨hregs, hbuf, hmotors, henv⟩ := returnToIdle_kept s
    exact ⟨_, hexec, rfl, hregs, hbuf, rfl, hmotors, henv⟩

/-- Settles O15: the guard by the order of the decoder's tests, the frame by the recovery action's. -/
theorem ckhiShortFrameIsDiscarded : Obligations.CkhiShortFrameIsDiscarded := by
  intro b s
  constructor
  · intro hp hm hc hl
    rw [decodeByte_ckHi hp, if_pos hm, if_neg (not_not.2 hc), if_pos hl]
  · obtain ⟨hregs, hbuf, hmotors, henv⟩ := returnToIdle_kept s
    exact ⟨_, exec_ckhiDiscardShort b s, rfl, hregs, hbuf, rfl, hmotors, henv⟩

/-- R111: a recognised command commits a frame of 13 payload bytes or more and discards a shorter one. -/
theorem exec_cmdSetChannels_effect (s : State) :
    ∃ t, exec .cmdSetChannels s = .next t ∧ t.phase = .idle ∧ (13 ≤ s.len.toNat → t.channels = decode6 s.buf) ∧
      (s.len.toNat < 13 → t.channels = s.channels) ∧ FrameRegsKept s t ∧ BufKept s t ∧ MotorsKept s t ∧
      EnvKept s t := by
  refine ⟨_, exec_cmdSetChannels s, ?_⟩
  by_cases hl : s.len.toNat < 13
  · rw [if_pos hl]
    exact ⟨rfl, fun h => absurd hl (by omega), fun _ => rfl, returnToIdle_kept s⟩
  · rw [if_neg hl]
    exact ⟨rfl, fun _ => rfl, fun h => absurd h hl, returnToIdle_publish_kept (decode6 s.buf) s⟩

/-- Settles O16: the event's row against the command's, and then the two command rows by themselves. -/
theorem commandByteDecidesTheFrame : Obligations.CommandByteDecidesTheFrame := by
  intro b s
  refine ⟨fun hp hm => ?event, ?recognised, fun cmd _ => ?unrecognised⟩
  case event =>
    rw [hp]
    exact exec_decodeByte_of_csumMatch ((csumMatch_iff (decodeCtx s) b).2 hm)
  case recognised =>
    obtain ⟨t, hexec, hidle, hlong, hshort, hkept⟩ := exec_cmdSetChannels_effect s
    refine ⟨t, hexec, hidle, fun hl i => ?_, hshort, hkept⟩
    rw [hlong hl]
    exact decode6_get_toNat s.buf i
  case unrecognised => exact ⟨_, exec_cmdUnrecognised cmd s, rfl, rfl, returnToIdle_kept s⟩

end Sys2Proof.Machine
end

section
/-! Safety of the frame decoder (40_frame_decoder.md section 4): the running checksum does not wrap (R115), and only a
commit writes the channels (R117). -/

namespace Sys2Proof.Machine

/-- R32: inside a frame of at most 29 payload bytes the checksum has counted some of them. -/
theorem FrameInv.exists_csumCounts {s : State} (h : FrameInv s) (hp : s.phase ≠ .idle) :
    s.len.toNat ≤ 29 ∧ ∃ n ≤ 29, CsumCounts s n := by
  cases hq : s.phase with
  | idle => exact absurd hq hp
  | accum =>
    obtain ⟨-, hmax, hlt, hc⟩ := (frameInv_accum_iff hq).1 h
    exact ⟨hmax, s.ptr.toNat, by omega, hc⟩
  | ckLo =>
    obtain ⟨-, hmax, -, hc⟩ := (frameInv_checksum_iff (.inl hq)).1 h
    exact ⟨hmax, s.len.toNat, hmax, hc⟩
  | ckHi =>
    obtain ⟨-, hmax, -, hc⟩ := (frameInv_checksum_iff (.inr hq)).1 h
    exact ⟨hmax, s.len.toNat, hmax, hc⟩

/-- R115: a length byte of at most 32 and 29 bytes of at most 255 leave `0xFFFF - 32 - 29 * 255 = 0xE2FC`. -/
theorem FrameInv.csum_ge {s : State} (h : FrameInv s) (hp : s.phase ≠ .idle) : 0xE2FC ≤ s.csum.toNat := by
  obtain ⟨hlen, n, hn, hc⟩ := h.exists_csumCounts hp
  have hsum := bufSum_le s.buf n
  rw [CsumCounts] at hc
  omega

theorem storePayload_phase_ne_idle {s : State} (hp : s.phase = .accum) (b : Byte) :
    (storePayload b s).phase ≠ .idle := by
  rcases storePayload_phase_cases (b := b) hp with h | h <;> rw [h] <;> decide

/-- Settles O37: the bound holds of the state and of the state after the store, whose subtraction is then exact. -/
theorem checksumSubtractionNeverWraps : Obligations.ChecksumSubtractionNeverWraps := by
  intro s b hinv
  refine ⟨hinv.frame.csum_ge, fun hp => ?_⟩
  have hge : 0xE2FC ≤ s.csum.toNat := hinv.frame.csum_ge (by simp [hp])
  have hge' : 0xE2FC ≤ (storePayload b s).csum.toNat :=
    (storePayload_frameInv hinv.buf.1 hp hinv.frame b).csum_ge (storePayload_phase_ne_idle hp b)
  have hb : b.toNat ≤ s.csum.toNat := by omega
  have hsub : (storePayload b s).csum.toNat = s.csum.toNat - b.toNat := by
    rw [storePayload_csum_toNat]
    omega
  exact ⟨_, exec_accumByte b s, hb, hsub, hge'⟩

/-- Settles O44: a step's write of the channels is a reset or a commit. -/
theorem onlyACommitWritesTheChannels : Obligations.OnlyACommitWritesTheChannels := by
  intro s t h hne
  rcases step_channels_cases h with hkept | ⟨p, rest, hi, hreset | ⟨hr, ht, hv, ⟨hp, hm, hc, hl⟩, hidle, hch⟩⟩
  · exact absurd hkept hne
  · exact ⟨p, rest, hi, .inl hreset⟩
  · exact ⟨p, rest, hi, .inr ⟨hr, ht, hv, hp, hm, hc, hl, hidle, hch⟩⟩

end Sys2Proof.Machine
end

section
/-! The round trip of a six-channel frame (40_frame_decoder.md R118): the channel bytes on the wire read back as the
values, and the frame of R83 carries the checksum that R76 asks for. -/

namespace Sys2Proof.Machine

/-! ### Channel values as bytes and back -/

theorem channelBytes_length : ∀ cs : List Half, (channelBytes cs).length = 2 * cs.length
  | [] => rfl
  | _ :: cs => by simp only [channelBytes, List.length_cons, channelBytes_length cs]; omega

/-- R77, R83: each value's field in the channel data is the value. -/
theorem pair16_channelBytes : ∀ (cs : List Half) (i : Nat),
    pair16 ((channelBytes cs).getD (2 * i) 0) ((channelBytes cs).getD (2 * i + 1) 0) = cs.getD i 0
  | [], i => by simp only [channelBytes, List.getD_nil]; rfl
  | c :: cs, 0 => by simp [channelBytes]
  | c :: cs, i + 1 => by
    have ih := pair16_channelBytes cs i
    simpa [channelBytes, Nat.mul_add] using ih

theorem payloadChannel_cons_channelBytes (cmd : Byte) (cs : List Half) (i : Fin numCh) :
    payloadChannel (cmd :: channelBytes cs) i = cs.getD i.val 0 := by
  have h := pair16_channelBytes cs i.val
  rwa [payloadChannel, Nat.add_comm 1, Nat.add_comm 2, List.getD_cons_succ, List.getD_cons_succ]

/-- R83: the payload of `CH6`, the command byte and six channel values. -/
def ch6Payload (c : Channels) : List Byte :=
  cmdSetChannelsCode :: channelBytes [c.ch0, c.ch1, c.ch2, c.ch3, c.ch4, c.ch5]

theorem ch6Payload_length (c : Channels) : (ch6Payload c).length = 13 := by
  rw [ch6Payload, List.length_cons, channelBytes_length]
  rfl

theorem payloadChannels_ch6Payload (c : Channels) : payloadChannels (ch6Payload c) = c := by
  simp only [ch6Payload, payloadChannels, payloadChannel_cons_channelBytes]
  rfl

/-! ### The frame of R83 is valid -/

theorem wireChecksum_lt (fb : Byte) (payload : List Byte) : wireChecksum fb payload < 65536 := by
  rw [wireChecksum]
  omega

/-- R76: a frame that carries its own checksum, low byte first, is valid. -/
theorem wireValid_wireChecksum (fb : Byte) (payload : List Byte) :
    wireValid fb payload (lowByte (BitVec.ofNat 16 (wireChecksum fb payload)))
      (highByte (BitVec.ofNat 16 (wireChecksum fb payload))) = true := by
  have hlt := wireChecksum_lt fb payload
  rw [wireValid, beq_iff_eq, lowByte_toNat, highByte_toNat, BitVec.toNat_ofNat, Nat.mod_eq_of_lt hlt]
  omega

/-- R83: `CH6` has length byte 16 and carries its own checksum. -/
theorem ch6Frame_eq (c : Channels) :
    ch6Frame c = wireFrame 16 (ch6Payload c) (lowByte (BitVec.ofNat 16 (wireChecksum 16 (ch6Payload c))))
      (highByte (BitVec.ofNat 16 (wireChecksum 16 (ch6Payload c)))) := rfl

/-- A valid `CH6` frame publishes its values, whatever the channels were. -/
theorem frameChannels_ch6Payload {c : Channels} {lo hi : Byte} (hv : wireValid 16 (ch6Payload c) lo hi = true)
    (before : Channels) : frameChannels 16 (ch6Payload c) lo hi before = c := by
  rw [frameChannels, if_pos ⟨hv, rfl, Nat.le_refl 16⟩, payloadChannels_ch6Payload]

/-- Settles O39: `CH6` is a valid frame with command 0x40 and length byte 16, so it publishes its values. -/
theorem sixChannelFrameRoundTrip : Obligations.SixChannelFrameRoundTrip := by
  intro s c rest ha hw hp hi
  rw [ch6Frame_eq] at hi
  have hlen : (ch6Payload c).length + 3 = (16 : Byte).toNat := by rw [ch6Payload_length]; rfl
  obtain ⟨t, hrun, ht⟩ := run_wireFrame ha hw hp (by decide) hlen hi
  have hpublished : t.channels = c :=
    ht.channels.trans (frameChannels_ch6Payload (wireValid_wireChecksum 16 (ch6Payload c)) s.channels)
  exact ⟨t, hrun, ht.phase, ht.inputs, hpublished, ht.motors⟩

end Sys2Proof.Machine
end

section
/-! Detection of a single changed byte (40_frame_decoder.md R114): the checksum of R76 is the exact sum's complement, so
one changed payload or checksum byte always breaks it. -/

namespace Sys2Proof.Machine

/-! ### One changed byte -/

theorem OneByteChanged.append_singleton_cases {l l' : List Byte} {b b' : Byte}
    (h : OneByteChanged (l ++ [b]) (l' ++ [b'])) : OneByteChanged l l' ∧ b = b' ∨ l = l' ∧ b ≠ b' := by
  obtain ⟨pre, post, x, y, hl, hl', hne⟩ := h
  rcases List.eq_nil_or_concat post with rfl | ⟨post, z, rfl⟩
  · obtain ⟨rfl, hb⟩ := List.append_inj' hl rfl
    obtain ⟨rfl, hb'⟩ := List.append_inj' hl' rfl
    rw [List.singleton_inj.1 hb, List.singleton_inj.1 hb']
    exact .inr ⟨rfl, hne⟩
  · rw [List.concat_eq_append, ← List.cons_append, ← List.append_assoc] at hl hl'
    obtain ⟨rfl, hb⟩ := List.append_inj' hl rfl
    obtain ⟨rfl, hb'⟩ := List.append_inj' hl' rfl
    exact .inl ⟨⟨pre, post, x, y, rfl, rfl, hne⟩, List.singleton_inj.1 (hb.trans hb'.symm)⟩

theorem byteSum_append (bs : List Byte) : ∀ as : List Byte, byteSum (as ++ bs) = byteSum as + byteSum bs
  | [] => (Nat.zero_add _).symm
  | a :: as => by simp only [List.cons_append, byteSum, byteSum_append bs as, Nat.add_assoc]

theorem byteSum_le : ∀ bs : List Byte, byteSum bs ≤ 255 * bs.length
  | [] => Nat.le_refl 0
  | b :: bs => by
    have hb := b.isLt
    have ih := byteSum_le bs
    simp only [byteSum, List.length_cons]
    omega

theorem OneByteChanged.byteSum_ne {l l' : List Byte} (h : OneByteChanged l l') : byteSum l ≠ byteSum l' := by
  obtain ⟨pre, post, x, y, rfl, rfl, hne⟩ := h
  have hxy : x.toNat ≠ y.toNat := mt BitVec.eq_of_toNat_eq hne
  simp only [byteSum_append, byteSum]
  omega

/-! ### A valid frame with one byte changed -/

/-- R76 without the subtraction: the bytes of a frame short enough for the wire sum to 0xFFFF exactly. -/
theorem wireValid_iff {fb lo hi : Byte} {payload : List Byte} (hfb : fb.toNat ≤ 32)
    (hn : payload.length + 3 = fb.toNat) :
    wireValid fb payload lo hi = true ↔ fb.toNat + byteSum payload + lo.toNat + 256 * hi.toNat = 0xFFFF := by
  have hsum := byteSum_le payload
  rw [wireValid, beq_iff_eq, wireChecksum]
  omega

/-- R114: whichever byte it is, the sum of the frame is no longer 0xFFFF. -/
theorem not_wireValid_of_oneByteChanged {fb lo hi lo' hi' : Byte} {payload payload' : List Byte} (hfb : fb.toNat ≤ 32)
    (hn : payload.length + 3 = fb.toNat) (hn' : payload'.length + 3 = fb.toNat)
    (hv : wireValid fb payload lo hi = true) (h : OneByteChanged (payload ++ [lo, hi]) (payload' ++ [lo', hi'])) :
    ¬ wireValid fb payload' lo' hi' = true := by
  rw [wireValid_iff hfb hn] at hv
  rw [wireValid_iff hfb hn']
  rw [List.append_cons payload, List.append_cons payload'] at h
  rcases h.append_singleton_cases with ⟨h, hhi⟩ | ⟨h, hhi⟩
  · rcases h.append_singleton_cases with ⟨h, hlo⟩ | ⟨rfl, hlo⟩
    · have hsum := h.byteSum_ne
      rw [← hlo, ← hhi]
      omega
    · have hne : lo.toNat ≠ lo'.toNat := mt BitVec.eq_of_toNat_eq hlo
      rw [← hhi]
      omega
  · obtain ⟨rfl, hlo⟩ := List.append_inj' h rfl
    have hne : hi.toNat ≠ hi'.toNat := mt BitVec.eq_of_toNat_eq hhi
    rw [← List.singleton_inj.1 hlo]
    omega

/-- Settles O40: the changed frame is not valid at the wire level, so it leaves the channels. -/
theorem singleChangedByteIsAlwaysDetected : Obligations.SingleChangedByteIsAlwaysDetected := by
  intro s fb lo hi lo' hi' payload payload' rest ha hw hp hgt hle hn hn' hv hchange hi
  obtain ⟨t, hrun, ht⟩ := run_wireFrame ha hw hp ⟨hgt, hle⟩ hn' hi
  have hbad := not_wireValid_of_oneByteChanged hle hn hn' hv hchange
  exact ⟨t, hrun, ht.phase, ht.inputs, ht.channels.trans (if_neg fun h => hbad h.1), ht.motors⟩

end Sys2Proof.Machine
end

section
/-! The mixer's arithmetic (41_drive_mixer.md sections 2, 3 and 5): the integer divisions round the exact rationals of the
spec, and every intermediate value has the range of R157. -/

namespace Sys2Proof.Machine

/-! ### Rounding (R10) -/

/-- R10: the integer division is the spec's `floor(num/den + 1/2)` over the rationals. -/
theorem roundDiv_eq_floor (num den : Int) (h : 0 < den) : roundDiv num den = ⌊(num : ℚ) / den + 1 / 2⌋ := by
  obtain ⟨hle, hlt⟩ := roundDiv_spec num den h
  have hden : (0 : ℚ) < 2 * den := by exact_mod_cast (by omega : 0 < 2 * den)
  have hq : (num : ℚ) / den + 1 / 2 = (2 * num + den : ℚ) / (2 * den) := by
    have : (den : ℚ) ≠ 0 := by exact_mod_cast h.ne'
    field_simp
  rw [eq_comm, Int.floor_eq_iff, hq, le_div_iff₀ hden, div_lt_iff₀ hden]
  exact ⟨by exact_mod_cast hle, by exact_mod_cast hlt⟩

/-! ### normalize (R147) -/

theorem mixerNormalize_ok (v oldMin oldMax newMin newMax : Int) :
    (mixerNormalize v oldMin oldMax newMin newMax).ok = normOk v oldMin oldMax newMin newMax := by
  unfold mixerNormalize
  split <;> simp [*]

/-- R154: the sentinel drives speed 0. -/
theorem NormResult.speed_of_not_ok {r : NormResult} (h : r.ok = false) : r.speed = 0 := by
  simp [NormResult.speed, h]

/-- R147: one fraction over the width of the input range is rounded. -/
theorem mixerNormalize_speed_of_ok {v oldMin oldMax newMin newMax : Int}
    (h : normOk v oldMin oldMax newMin newMax = true) :
    (mixerNormalize v oldMin oldMax newMin newMax).speed =
      roundDiv ((v - oldMin) * (newMax - newMin) + newMin * (oldMax - oldMin)) (oldMax - oldMin) := by
  simp [mixerNormalize, NormResult.speed, h]

/-- Settles O22: where normalize has a value its input range has a width, so the one fraction is the spec's sum. -/
theorem normalizeRoundsTheExactRational : Obligations.NormalizeRoundsTheExactRational := by
  intro v oldMin oldMax newMin newMax
  have hiff := normOk_iff v oldMin oldMax newMin newMax
  rw [mixerNormalize_ok]
  refine ⟨hiff.trans (by omega), fun hok => ?_, fun hno => ?_⟩
  · have hwidth : 0 < oldMax - oldMin := by have := hiff.1 hok; omega
    have hne : (oldMax - oldMin : ℚ) ≠ 0 := by exact_mod_cast hwidth.ne'
    rw [mixerNormalize_speed_of_ok hok, roundDiv_eq_floor _ _ hwidth]
    push_cast
    rw [add_div, mul_div_cancel_right₀ _ hne]
  · exact NormResult.speed_of_not_ok ((mixerNormalize_ok ..).trans hno)

/-! ### The reduction of a turn (R145, R146) -/

/-- R145: fifths are never halfway between two integers. -/
theorem div_five_ne_half (a k : Int) : (a : ℚ) / 5 ≠ k + 1 / 2 := by
  intro h
  have hodd : (2 * a : ℚ) = 10 * k + 5 := by linarith
  have : 2 * a = 10 * k + 5 := by exact_mod_cast hodd
  omega

/-- Settles O23: both roundings are `roundDiv`, and the second one is exact. -/
theorem turnReductionIsExact : Obligations.TurnReductionIsExact := by
  intro a
  refine ⟨?_, div_five_ne_half a, fun p => ?_, reduction_turnPct a⟩
  · rw [turnPct, roundDiv_eq_floor _ _ (by decide)]
    congr 2
    push_cast
    ring
  · rw [reduction_eq]
    push_cast
    ring

/-! ### Widths (R157) -/

/-- R144: CENTER in numbers. -/
theorem turnAmountRight_eq (steer : Int) : turnAmountRight steer = steer - 1500 := rfl

theorem turnAmountLeft_eq (steer : Int) : turnAmountLeft steer = 1500 - steer := rfl

/-- R157: the ranges follow from that of the turn amount, whichever band it comes from. -/
theorem inMixerWidths_of_turnAmount {a : Int} (ha : 10 ≤ a ∧ a ≤ 64035) (throttle : Half) :
    InMixerWidths throttle a := by
  have hp := turnPct_eq a
  have hr := reduction_eq (turnPct a)
  have hthrottle := throttle.isLt
  have hpct : 2 ≤ turnPct a ∧ turnPct a ≤ 12807 := by omega
  exact ⟨ha, hpct, by omega, by omega⟩

/-- Settles O24: the turn amount is at least the dead-band's half-width, and largest at steer 65535. -/
theorem mixerIntermediatesStayInTheirWidths : Obligations.MixerIntermediatesStayInTheirWidths := by
  refine ⟨fun steer throttle => ⟨fun h => ?_, fun h => ?_⟩, fun dutyMax v hlo hhi => ?_⟩
  · have hsteer := steer.isLt
    exact inMixerWidths_of_turnAmount (by rw [turnAmountRight_eq]; omega) throttle
  · exact inMixerWidths_of_turnAmount (by rw [turnAmountLeft_eq]; omega) throttle
  · have hduty := dutyMax.isLt
    constructor
    · exact Int.mul_nonneg (by omega) (by omega)
    · calc (v - 1000) * (dutyMax.toNat : Int)
          ≤ 1000 * 65535 := Int.mul_le_mul (by omega) (by omega) (by omega) (by omega)
        _ = 65535000 := by norm_num

/-! ### How the speed depends on its argument (R147, R155) -/

/-- R147: N is monotone up to the end of its range; beyond it the sentinel makes it 0. -/
theorem motorSpeed_mono {x y : Int} (dutyMax : Half) (hxy : x ≤ y) (hy : y ≤ 2000) :
    (motorSpeed dutyMax x).toNat ≤ (motorSpeed dutyMax y).toNat := by
  have hx := motorSpeed_toNat dutyMax x
  have hspeed := motorSpeed_toNat dutyMax y
  by_cases h : 1000 ≤ x ∧ x ≤ 2000 ∧ 0 < dutyMax.toNat
  · rw [if_pos h] at hx
    rw [if_pos (by omega)] at hspeed
    have : (x - 1000) * (dutyMax.toNat : Int) ≤ (y - 1000) * dutyMax.toNat :=
      Int.mul_le_mul_of_nonneg_right (by omega) (by omega)
    omega
  · rw [if_neg h] at hx
    omega

/-- R147: N is 0 up to the start of its range, by the sentinel below it and by the value at it. -/
theorem motorSpeed_eq_zero_of_le (dutyMax : Half) {v : Int} (hv : v ≤ 1000) : motorSpeed dutyMax v = 0 := by
  have hle := motorSpeed_mono dutyMax hv (by omega)
  have hstart : (motorSpeed dutyMax 1000).toNat = 0 := by simpa using motorSpeed_toNat dutyMax 1000
  exact BitVec.eq_of_toNat_eq (Nat.le_zero.1 (hstart ▸ hle))

/-- R155: no turn makes the reduced motor the faster one. -/
theorem motorSpeed_reduced_le (dutyMax : Half) {a throttle : Int} (ha : 0 ≤ a) (ht : throttle ≤ 2000) :
    (motorSpeed dutyMax (throttle - reduction (turnPct a))).toNat ≤ (motorSpeed dutyMax throttle).toNat := by
  have hp := turnPct_eq a
  rw [reduction_eq]
  exact motorSpeed_mono dutyMax (by omega) ht

/-- R149, R150: a turn amount of the stick's half-range takes the whole of N's range away. -/
theorem motorSpeed_reduced_eq_zero (dutyMax : Half) {a throttle : Int} (ha : 500 ≤ a) (ht : throttle ≤ 2000) :
    motorSpeed dutyMax (throttle - reduction (turnPct a)) = 0 := by
  have hp := turnPct_eq a
  rw [reduction_eq]
  exact motorSpeed_eq_zero_of_le dutyMax (by omega)

end Sys2Proof.Machine
end

section
/-! The mixer rows (41_drive_mixer.md sections 1, 4 and 5): the speeds of each band, what a tick leaves unchanged, and what
it depends on. -/

namespace Sys2Proof.Machine

/-! ### What the four rows have in common (R140, R152) -/

/-- Each row drives the motors at the speeds of one band, and only in an admitted configuration. -/
theorem exec_mixerRow {i : Instr} (hi : i ∈ [Instr.mixTick, .mixStraight, .mixRight, .mixLeft]) (s : State) :
    ∃ band, exec i s =
      ifAdmitted s (.next (driveForward (bandSpeeds band s.cfg.dutyMax (steerOf s) (throttleOf s)) s)) := by
  simp only [List.mem_cons, List.not_mem_nil, or_false] at hi
  rcases hi with rfl | rfl | rfl | rfl
  · exact ⟨steerBand (s.channels.get chSteer), rfl⟩
  · exact ⟨.straight, rfl⟩
  · exact ⟨.right, rfl⟩
  · exact ⟨.left, rfl⟩

theorem ifAdmitted_of_not_admitted {s : State} (h : ¬ s.cfg.admitted = true)
    (k : Host.Outcome State Fault Refusal) : ifAdmitted s k = .refused .dirModeNotAdmitted := if_neg h

/-- R142, R153: the directions a tick writes, and everything it leaves unchanged. -/
theorem driveForward_dirs_and_frame (v : Speeds) (s : State) :
    (driveForward v s).motorA.dir = .forward ∧ (driveForward v s).motorB.dir = .forward ∧
      DecoderKept s (driveForward v s) ∧ (driveForward v s).channels = s.channels ∧ EnvKept s (driveForward v s) :=
  ⟨rfl, rfl, tick_decoderKept v s.inputs s, rfl, rfl, rfl⟩

/-- Settles O4: the step checks the configuration first, and each mixer row checks it again. -/
theorem otherDirectionModeIsRefused : Obligations.OtherDirectionModeIsRefused := by
  intro s hmode
  have hna : ¬ s.cfg.admitted = true := by simp [Config.admitted, hmode]
  refine ⟨step_not_admitted hna, fun i hi => ?_⟩
  obtain ⟨band, hrow⟩ := exec_mixerRow hi s
  rw [hrow, ifAdmitted_of_not_admitted hna]

/-- Settles O25: whatever the band, its speeds are within DUTY_MAX. -/
theorem tickOutputsAreBoundedAndForward : Obligations.TickOutputsAreBoundedAndForward := by
  intro i s t hi h
  obtain ⟨band, hrow⟩ := exec_mixerRow hi s
  rw [hrow] at h
  obtain ⟨ha, hb⟩ := bandSpeeds_le band s.cfg.dutyMax (steerOf s) (throttleOf s)
  rw [eq_driveForward_of_ifAdmitted h]
  exact ⟨⟨ha, rfl⟩, ⟨hb, rfl⟩⟩

/-! ### The row of each band (R148, R149, R150) -/

/-- R149, R150: the reduced motor's speed in closed form. -/
theorem motorSpeed_reduced_eq_speedOf (dutyMax : Half) (throttle a : Int) :
    ((motorSpeed dutyMax (throttle - reduction (turnPct a))).toNat : Int) =
      speedOf dutyMax (throttle - reductionOf a) := by
  rw [motorSpeed_eq_speedOf, reduction_turnPct]

/-- Settles O18: both motors get the same unreduced speed. -/
theorem mixStraightGivesBothMotorsFullSpeed : Obligations.MixStraightGivesBothMotorsFullSpeed := fun s ha =>
  ⟨steerBand_straight_iff _, _, exec_mixStraight ha, motorSpeed_eq_speedOf .., motorSpeed_eq_speedOf ..,
    driveForward_dirs_and_frame _ s⟩

/-- Settles O19: motor B's speed is the reduced one. -/
theorem mixRightReducesMotorB : Obligations.MixRightReducesMotorB := fun s ha =>
  ⟨steerBand_right_iff _, _, exec_mixRight ha, motorSpeed_eq_speedOf .., motorSpeed_reduced_eq_speedOf ..,
    driveForward_dirs_and_frame _ s⟩

/-- Settles O20: motor A's speed is the reduced one. -/
theorem mixLeftReducesMotorA : Obligations.MixLeftReducesMotorA := fun s ha =>
  ⟨steerBand_left_iff _, _, exec_mixLeft ha, motorSpeed_reduced_eq_speedOf .., motorSpeed_eq_speedOf ..,
    driveForward_dirs_and_frame _ s⟩

/-! ### The tick (R140, R155, R156) -/

theorem exec_mixTick_tickSpeeds {s : State} (ha : s.cfg.admitted = true) :
    exec .mixTick s = .next (driveForward (tickSpeeds s) s) := exec_mixTick ha

theorem tickSpeeds_of_right {s : State} (h : 1510 ≤ s.channels.ch0.toNat) :
    tickSpeeds s = rightSpeeds s.cfg.dutyMax s.channels.ch0.toNat s.channels.ch2.toNat := by
  rw [tickSpeeds, (steerBand_right_iff _).2 h, bandSpeeds_right]

theorem tickSpeeds_of_left {s : State} (h : s.channels.ch0.toNat ≤ 1490) :
    tickSpeeds s = leftSpeeds s.cfg.dutyMax s.channels.ch0.toNat s.channels.ch2.toNat := by
  rw [tickSpeeds, (steerBand_left_iff _).2 h, bandSpeeds_left]

theorem tickSpeeds_of_straight {s : State} (h : 1490 < s.channels.ch0.toNat ∧ s.channels.ch0.toNat < 1510) :
    tickSpeeds s = straightSpeeds s.cfg.dutyMax s.channels.ch2.toNat := by
  rw [tickSpeeds, (steerBand_straight_iff _).2 h, bandSpeeds_straight]

/-- Settles O21: the band in numbers selects the speeds that the band's own row drives. -/
theorem mixTickRunsItsBandsRule : Obligations.MixTickRunsItsBandsRule := by
  intro s ha
  rw [exec_mixTick_tickSpeeds ha]
  refine ⟨fun h => ?_, fun h => ?_, fun hlo hhi => ?_, _, rfl, driveForward_dirs_and_frame _ s⟩
  · rw [exec_mixRight ha, tickSpeeds_of_right h]
  · rw [exec_mixLeft ha, tickSpeeds_of_left h]
  · rw [exec_mixStraight ha, tickSpeeds_of_straight ⟨hlo, hhi⟩]

/-- Settles O26: the speeds of a tick read two channels and DUTY_MAX, and its directions nothing. -/
theorem tickDependsOnlyOnSteerThrottleAndDutyMax : Obligations.TickDependsOnlyOnSteerThrottleAndDutyMax := by
  intro s s' ha ha' hsteer hthrottle hduty
  have hspeeds : tickSpeeds s = tickSpeeds s' := by rw [tickSpeeds, tickSpeeds, hsteer, hthrottle, hduty]
  refine ⟨_, _, exec_mixTick_tickSpeeds ha, exec_mixTick_tickSpeeds ha', ?_⟩
  simp only [driveForward_motorA, driveForward_motorB, hspeeds, and_self]

/-- Settles O27: the inside motor's speed is the reduced one, whose turn amount is that of the band. -/
theorem turnSlowsTheInsideMotor : Obligations.TurnSlowsTheInsideMotor := by
  intro s t hthrottle h
  rw [exec_mixTick_tickSpeeds (exec_mixTick_cases h).1] at h
  injection h with h
  subst h
  have ht : (s.channels.ch2.toNat : Int) ≤ 2000 := by omega
  simp only [driveForward_motorA, driveForward_motorB]
  refine ⟨fun hx => ?_, fun hx => ?_, fun hx => ?_, fun hx => ?_⟩
  · rw [tickSpeeds_of_right hx]
    exact motorSpeed_reduced_le _ (by rw [turnAmountRight_eq]; omega) ht
  · rw [tickSpeeds_of_right (by omega)]
    exact motorSpeed_reduced_eq_zero _ (by rw [turnAmountRight_eq]; omega) ht
  · rw [tickSpeeds_of_left hx]
    exact motorSpeed_reduced_le _ (by rw [turnAmountLeft_eq]; omega) ht
  · rw [tickSpeeds_of_left (by omega)]
    exact motorSpeed_reduced_eq_zero _ (by rw [turnAmountLeft_eq]; omega) ht

end Sys2Proof.Machine
end

section
/-! The events of a port cycle (60_exceptions.md): the word each event presents and the row it decodes to, and the step
with no event. -/

namespace Sys2Proof.Machine

/-! ### The presented words and their rows (R71, R190, R201) -/

/-- R201: the reset of a cycle decodes to RESET, whatever else the cycle holds. -/
theorem decode_ev_of_rst {p : PortIn} (hr : p.rst = true) (ctx : DecodeCtx) :
    decode ctx (.ev3 p.ev) = .ok .reset :=
  (decode_ev3_eq_ok_iff ctx p.ev .reset).2 (.inl ⟨by rw [PortIn.ev, portVector_rst, hr], rfl⟩)

/-- R205: the tick of a cycle without reset decodes to MIX_TICK, with or without a byte. -/
theorem decode_ev_of_tick {p : PortIn} (hr : p.rst = false) (ht : p.tick = true) (ctx : DecodeCtx) :
    decode ctx (.ev3 p.ev) = .ok .mixTick :=
  (decode_ev3_eq_ok_iff ctx p.ev .mixTick).2
    (.inr ⟨by rw [PortIn.ev, portVector_rst, hr], by rw [PortIn.ev, portVector_tick, ht], rfl⟩)

/-- A fetched word is the reset, the tick or the byte of the cycle at the head of the list, with what that event leaves of
the cycle. -/
theorem fetchWord_cases {s : State} {w : TableWord} {rest : List PortIn} (h : fetchWord s = some (w, rest)) :
    ∃ p ps, s.inputs = p :: ps ∧
      (p.rst = true ∧ w = .ev3 p.ev ∧ rest = ps ∨
        p.rst = false ∧ p.tick = true ∧ w = .ev3 p.ev ∧ rest = afterTick p ps ∨
        p.rst = false ∧ p.tick = false ∧ p.inValid = true ∧ w = .dw10 (decodeWordOf s.phase p.inByte) ∧ rest = ps) := by
  cases hi : s.inputs with
  | nil => simp [fetchWord_nil hi] at h
  | cons p ps =>
    refine ⟨p, ps, rfl, ?_⟩
    cases hr : p.rst with
    | true =>
      rw [fetchWord_reset hi hr] at h
      obtain ⟨rfl, rfl⟩ := Prod.mk.inj (Option.some.inj h)
      exact .inl ⟨rfl, rfl, rfl⟩
    | false =>
      cases ht : p.tick with
      | true =>
        rw [fetchWord_tick hi hr ht] at h
        obtain ⟨rfl, rfl⟩ := Prod.mk.inj (Option.some.inj h)
        exact .inr (.inl ⟨rfl, rfl, rfl, rfl⟩)
      | false =>
        cases hv : p.inValid with
        | true =>
          rw [fetchWord_byte hi hr ht hv] at h
          obtain ⟨rfl, rfl⟩ := Prod.mk.inj (Option.some.inj h)
          exact .inr (.inr ⟨rfl, rfl, rfl, rfl, rfl⟩)
        | false => simp [fetchWord_idle hi hr ht hv] at h

/-- R180: every fetched word has a row. -/
theorem decode_of_fetchWord {s : State} {w : TableWord} {rest : List PortIn} (h : fetchWord s = some (w, rest)) :
    ∃ i, decode (decodeCtx s) w = .ok i := by
  obtain ⟨p, ps, -, ⟨hr, rfl, -⟩ | ⟨hr, ht, rfl, -⟩ | ⟨-, -, -, rfl, -⟩⟩ := fetchWord_cases h
  · exact ⟨_, decode_ev_of_rst hr _⟩
  · exact ⟨_, decode_ev_of_tick hr ht _⟩
  · exact ⟨_, decode_decodeWordOf ..⟩

/-- R71: a decoded row has a well-formed operand, and its guard holds where it was decoded. -/
theorem wf_guard_of_decode {ctx : DecodeCtx} {w : TableWord} {i : Instr} (h : decode ctx w = .ok i) :
    i.wf = true ∧ i.guard ctx = true := by
  obtain ⟨hwf, hrow⟩ := decodedRowMatchesTheTable ctx w i h
  exact ⟨hwf, ((rowMatches_iff ctx w.bits i).1 hrow).2⟩

/-- Settles O3: every step has one of the effects of `StepEffect`, and a fetched word's row matches the table. -/
theorem everyStepCompletes : Obligations.EveryStepCompletes := by
  constructor
  · intro s ha
    obtain ⟨t, ht, -⟩ := step_effect ha
    exact ⟨t, ht⟩
  · intro s w rest hf
    obtain ⟨i, hi⟩ := decode_of_fetchWord hf
    exact ⟨i, hi, wf_guard_of_decode hi⟩

/-- Settles O2: by what the cycle at the head of the list presents. -/
theorem cyclePresentsItsEventsInOrder : Obligations.CyclePresentsItsEventsInOrder := by
  intro s p rest hi
  have htick (hr : p.rst = false) (ht : p.tick = true) :
      ∃ w, fetchWord s = some (w, afterTick p rest) ∧ decode (decodeCtx s) w = .ok .mixTick :=
    ⟨_, fetchWord_tick hi hr ht, decode_ev_of_tick hr ht _⟩
  refine ⟨fun hr => ?_, fun hr ht hv => ?_, fun hr ht hv => ?_, fun hr ht hv => ?_, fetchWord_idle hi⟩
  · exact ⟨_, fetchWord_reset hi hr, decode_ev_of_rst hr _⟩
  · simpa only [afterTick, hv, if_true] using htick hr ht
  · simpa only [afterTick, hv, Bool.false_eq_true, if_false] using htick hr ht
  · exact ⟨_, fetchWord_byte hi hr ht hv, decode_decodeWordOf ..⟩

/-! ### No event (R195) -/

/-- The waiting cycles are not the decoder's. -/
theorem withInputs_decoderKept (ps : List PortIn) (s : State) : DecoderKept s (withInputs ps s) :=
  ⟨rfl, ⟨rfl, rfl, rfl, rfl⟩, fun _ => rfl⟩

/-- Settles O5: the step only takes the cycle, where there is one. -/
theorem noEventHoldsTheState : Obligations.NoEventHoldsTheState := by
  intro s ha
  refine ⟨step_nil ha, fun b rest hi => ?_⟩
  exact ⟨_, step_idle ha hi rfl rfl rfl, withInputs_decoderKept rest s, rfl, ⟨rfl, rfl⟩, rfl, rfl⟩

end Sys2Proof.Machine
end

section
/-! RESET (70_reset_and_hazards.md R200, R201, R202): the values it writes, the cycle it loses, and the tick that finds
them. -/

namespace Sys2Proof.Machine

/-! ### The reset values (R200) -/

theorem Channels.zero_get (i : Fin numCh) : Channels.zero.get i = 0 := by
  fin_cases i <;> rfl

/-- Settles O17: the row answers `resetRegisters`, whose fields are the values of R200. -/
theorem resetWritesEveryRegister : Obligations.ResetWritesEveryRegister := fun s =>
  ⟨_, exec_reset s, rfl, rfl, rfl, rfl, rfl, resetRegisters_read s, Channels.zero_get, rfl, rfl, rfl, rfl, rfl, rfl⟩

/-- Settles O6: a reset cycle is taken whole before the row runs, so neither its tick nor its byte is left. -/
theorem resetCycleLosesItsTickAndByte : Obligations.ResetCycleLosesItsTickAndByte := by
  intro s tick inValid b rest ha hi
  have hstep : step s = .next (resetRegisters (withInputs rest s)) := step_reset ha hi rfl
  exact ⟨hstep.trans (exec_reset _).symm, _, hstep, rfl, rfl, rfl, rfl, rfl, rfl, rfl, rfl, resetRegisters_read _, rfl,
    rfl⟩

/-- A state with the reset values is a fixed point of RESET. -/
theorem resetRegisters_resetWith (cfg : Config) : resetRegisters (State.resetWith cfg) = State.resetWith cfg := rfl

/-- Settles O36: RESET establishes the invariant, and the reset state is what it leaves. -/
theorem resetMeetsTheStateInvariant : Obligations.ResetMeetsTheStateInvariant := by
  have hinv (cfg : Config) : Inv (State.resetWith cfg) := resetRegisters_resetWith cfg ▸ resetRegisters_inv _
  exact ⟨hinv, hinv Config.example500⟩

/-! ### A tick with no commit since reset (R202) -/

/-- Steer 0 is in the left band; throttle 0 is below N's range, and the reduction takes it further down. -/
theorem tickSpeeds_of_channels_zero {s : State} (hc : s.channels = Channels.zero) : tickSpeeds s = ⟨0, 0⟩ := by
  have hsteer : s.channels.ch0.toNat = 0 := by rw [hc]; rfl
  have hthrottle : s.channels.ch2.toNat = 0 := by rw [hc]; rfl
  have hpct := turnPct_eq (turnAmountLeft 0)
  rw [tickSpeeds_of_left (by omega), hsteer, hthrottle, leftSpeeds, Speeds.mk.injEq]
  constructor
  · apply motorSpeed_eq_zero_of_le
    rw [reduction_eq, Int.natCast_zero, hpct, turnAmountLeft_eq]
    omega
  · exact motorSpeed_eq_zero_of_le _ (by omega)

/-- Settles O28: the tick writes the speeds of zero channels, whatever the motors held. -/
theorem tickBeforeTheFirstCommitStopsBothMotors : Obligations.TickBeforeTheFirstCommitStopsBothMotors := by
  intro s ha hc
  refine ⟨_, exec_mixTick_tickSpeeds ha, ?_⟩
  rw [tickSpeeds_of_channels_zero hc]
  exact ⟨rfl, rfl⟩

end Sys2Proof.Machine
end

section
/-! A tick and a byte in one cycle (70_reset_and_hazards.md R205): a byte neither reads nor writes the motors, so its row
does the same after the tick as before it. -/

namespace Sys2Proof.Machine

/-- A byte's effect with other motors and other cycles waiting is its effect without, with those motors and cycles. -/
theorem ByteEffect.withInputs_driveForward {b : Byte} {s t : State} (h : ByteEffect b s t) (v : Speeds)
    (ps : List PortIn) : ByteEffect b (withInputs ps (driveForward v s)) (withInputs ps (driveForward v t)) := by
  cases h with
  | accept hp hb => exact .accept hp hb
  | drop hp hb => exact .drop hp hb
  | store hp => exact .store hp
  | hold hp => exact .hold hp
  | commit hp hm hc hl => exact .commit hp hm hc hl
  | discard hp hn => exact .discard hp hn

/-- R205: the tick runs first, on the channels from before the byte, and leaves the byte as a cycle of its own. -/
theorem run_tick_then_byte {s v : State} {b : Byte} {rest : List PortIn} (ha : s.cfg.admitted = true)
    (hi : s.inputs = { rst := false, tick := true, inValid := true, inByte := b } :: rest) (he : ByteEffect b s v) :
    run 2 s = .next (withInputs rest (driveForward (tickSpeeds s) v)) := by
  have htick : step s = .next (driveForward (tickSpeeds s) (withInputs (byteCycle b :: rest) s)) :=
    (step_tick ha hi rfl rfl).trans (exec_mixTick_tickSpeeds (s := withInputs (byteCycle b :: rest) s) ha)
  have hbyte := step_byteCycle (s := driveForward (tickSpeeds s) (withInputs (byteCycle b :: rest) s)) ha rfl
    (he.withInputs_driveForward (tickSpeeds s) rest)
  rw [run_succ 1 htick, run_succ 0 hbyte, run_zero]

/-- Settles O7: the tick writes only the motors, and the byte everything else. -/
theorem tickReadsChannelsFromBeforeItsCyclesByte : Obligations.TickReadsChannelsFromBeforeItsCyclesByte := by
  intro s b rest ha hi
  obtain ⟨v, hv, he⟩ := exec_decodeByte b s
  exact ⟨_, v, exec_mixTick_tickSpeeds ha, hv, run_tick_then_byte ha hi he⟩

end Sys2Proof.Machine
end

section
/-! How long a length byte holds the decoder (70_reset_and_hazards.md R209): each byte of a frame brings its end one byte
nearer, whatever the byte is. -/

namespace Sys2Proof.Machine

/-- The frame in progress ends after exactly `n` more bytes; in IDLE there is none. -/
def BytesToIdle (n : Nat) (s : State) : Prop :=
  match s.phase with
  | .idle => n = 0
  | .accum => s.ptr.toNat < s.len.toNat ∧ s.ptr.toNat + n = s.len.toNat + 2
  | .ckLo => n = 2
  | .ckHi => n = 1

/-! ### The count, phase by phase -/

theorem bytesToIdle_idle_iff {n : Nat} {s : State} (hp : s.phase = .idle) : BytesToIdle n s ↔ n = 0 := by
  simp [BytesToIdle, hp]

theorem bytesToIdle_accum_iff {n : Nat} {s : State} (hp : s.phase = .accum) :
    BytesToIdle n s ↔ s.ptr.toNat < s.len.toNat ∧ s.ptr.toNat + n = s.len.toNat + 2 := by
  simp [BytesToIdle, hp]

theorem bytesToIdle_ckLo_iff {n : Nat} {s : State} (hp : s.phase = .ckLo) : BytesToIdle n s ↔ n = 2 := by
  simp [BytesToIdle, hp]

theorem bytesToIdle_ckHi_iff {n : Nat} {s : State} (hp : s.phase = .ckHi) : BytesToIdle n s ↔ n = 1 := by
  simp [BytesToIdle, hp]

/-- The decoder is in IDLE exactly when no byte is missing. -/
theorem BytesToIdle.phase_idle_iff {n : Nat} {s : State} (h : BytesToIdle n s) : s.phase = .idle ↔ n = 0 := by
  cases hp : s.phase with
  | idle => simpa using (bytesToIdle_idle_iff hp).1 h
  | accum =>
    obtain ⟨hlt, hn⟩ := (bytesToIdle_accum_iff hp).1 h
    simp only [reduceCtorEq, false_iff]
    omega
  | ckLo => simp [(bytesToIdle_ckLo_iff hp).1 h]
  | ckHi => simp [(bytesToIdle_ckHi_iff hp).1 h]

/-! ### The count, operation by operation -/

/-- R79, R101: an accepted length byte `fb` announces `fb - 3` payload bytes and two of checksum. -/
theorem acceptLength_bytesToIdle {fb : Byte} (hfb : 3 < fb.toNat ∧ fb.toNat ≤ 32) {n : Nat} (hn : n + 1 = fb.toNat)
    (s : State) : BytesToIdle n (acceptLength fb s) := by
  have hptr : (acceptLength fb s).ptr.toNat = 0 := rfl
  rw [bytesToIdle_accum_iff rfl, acceptLength_len_toNat hfb, hptr]
  omega

/-- R103: the last payload byte leaves the two checksum bytes, every other the rest of the payload too. -/
theorem storePayload_bytesToIdle {n : Nat} {s : State} (hp : s.phase = .accum) (h : BytesToIdle (n + 1) s) (b : Byte) :
    BytesToIdle n (storePayload b s) := by
  obtain ⟨hlt, hn⟩ := (bytesToIdle_accum_iff hp).1 h
  by_cases hlast : s.ptr.toNat + 1 = s.len.toNat
  · rw [bytesToIdle_ckLo_iff (storePayload_phase_of_last hlast b)]
    omega
  · rw [bytesToIdle_accum_iff ((storePayload_phase_of_not_last hlast b).trans hp), storePayload_ptr_toNat hlt,
      storePayload_len]
    omega

/-- Inside a frame every byte counts, good or bad. -/
theorem ByteEffect.bytesToIdle {n : Nat} {b : Byte} {s t : State} (he : ByteEffect b s t)
    (h : BytesToIdle (n + 1) s) : BytesToIdle n t := by
  cases he with
  | accept hp | drop hp => exact absurd ((bytesToIdle_idle_iff hp).1 h) (Nat.succ_ne_zero n)
  | store hp => exact storePayload_bytesToIdle hp h b
  | hold hp => exact (bytesToIdle_ckHi_iff rfl).2 (Nat.succ.inj ((bytesToIdle_ckLo_iff hp).1 h))
  | commit hp | discard hp => exact (bytesToIdle_idle_iff rfl).2 (Nat.succ.inj ((bytesToIdle_ckHi_iff hp).1 h))

/-! ### The count over a run -/

/-- The waiting cycles are not the byte's. -/
theorem ByteEffect.inputs_eq {b : Byte} {s t : State} (h : ByteEffect b s t) : t.inputs = s.inputs := by
  cases h <;> rfl

/-- Bytes of a frame take one step each and are counted down. -/
theorem run_bytesToIdle (rest : List PortIn) {n : Nat} : ∀ (bs : List Byte) {s : State}, s.cfg.admitted = true →
    BytesToIdle (n + bs.length) s → s.inputs = byteCycles bs ++ rest →
    ∃ t, run bs.length s = .next t ∧ BytesToIdle n t ∧ t.inputs = rest
  | [], s, _, h, hi => ⟨s, rfl, h, hi⟩
  | b :: bs, s, ha, h, hi => by
    obtain ⟨u, -, he⟩ := exec_decodeByte b (withInputs (byteCycles bs ++ rest) s)
    have hu : BytesToIdle (n + bs.length) u := he.bytesToIdle h
    obtain ⟨t, hrun, ht⟩ := run_bytesToIdle rest bs (he.cfg_eq ▸ ha) hu he.inputs_eq
    exact ⟨t, (run_succ _ (step_byteCycle ha hi he)).trans hrun, ht⟩

/-- R209: a length byte and the bytes after it, up to any point of the frame. -/
theorem run_lengthByte {s : State} {fb : Byte} {n : Nat} (bs : List Byte) {rest : List PortIn}
    (ha : s.cfg.admitted = true) (hp : s.phase = .idle) (hfb : 3 < fb.toNat ∧ fb.toNat ≤ 32)
    (hn : n + bs.length + 1 = fb.toNat) (hi : s.inputs = byteCycles (fb :: bs) ++ rest) :
    ∃ t, run (bs.length + 1) s = .next t ∧ BytesToIdle n t ∧ t.inputs = rest := by
  obtain ⟨t, hrun, ht⟩ := run_bytesToIdle rest bs (s := acceptLength fb (withInputs (byteCycles bs ++ rest) s)) ha
    (acceptLength_bytesToIdle hfb hn _) rfl
  exact ⟨t, (run_succ _ (step_byteCycle ha hi (.accept hp hfb))).trans hrun, ht⟩

theorem byteCycles_take_append_drop (k : Nat) (bs : List Byte) :
    byteCycles bs = byteCycles (bs.take k) ++ byteCycles (bs.drop k) := by
  rw [byteCycles, byteCycles, byteCycles, ← List.map_append, List.take_append_drop]

/-- Settles O42: after `k + 1` steps `fb - 1 - k` bytes are missing, and the decoder is in IDLE when none is. -/
theorem lengthByteHoldsTheDecoderExactly : Obligations.LengthByteHoldsTheDecoderExactly := by
  intro s fb bs rest ha hp hgt hle hlen hi
  constructor
  · intro _ hpos hlt
    obtain ⟨k, rfl⟩ := Nat.exists_eq_add_of_le' hpos
    have htake : (bs.take k).length = k := List.length_take_of_le (by omega)
    have hsplit : s.inputs = byteCycles (fb :: bs.take k) ++ (byteCycles (bs.drop k) ++ rest) := by
      rw [hi, byteCycles_take_append_drop (k + 1) (fb :: bs), List.append_assoc]
      rfl
    obtain ⟨t, hrun, ht, -⟩ := run_lengthByte (n := fb.toNat - (k + 1)) _ ha hp ⟨hgt, hle⟩ (by omega) hsplit
    rw [htake] at hrun
    exact ⟨t, hrun, mt ht.phase_idle_iff.1 (by omega)⟩
  · obtain ⟨t, hrun, ht, hrest⟩ := run_lengthByte (n := 0) bs ha hp ⟨hgt, hle⟩ (by omega) hi
    exact ⟨t, hlen ▸ hrun, ht.phase_idle_iff.2 rfl, hrest⟩

end Sys2Proof.Machine
end
